-- ==== Sys2Proof/Word.lean ====
section
/-! DEFINITION. The word types of the block: one host register word (R39), one transaction word (R53), one
received frame (R28) and one byte of it (R13). Every value is unsigned (R9). -/

namespace Sys2Proof

/-- A 32-bit register word: `bus_wdata`, `bus_rdata` (R39, R43). -/
abbrev Word := BitVec 32

/-- The 36-bit transaction word `T = {we, addr[2:0], wdata[31:0]}` (R53). -/
abbrev Txn := BitVec 36

/-- The 40-bit frame, the contents of the shift register `sr` (R28, R47). -/
abbrev Frame := BitVec 40

/-- One byte of a frame (R13). -/
abbrev Byte := BitVec 8

end Sys2Proof
end

