-- ==== Sys2Proof/Config.lean ====
section
/-! DEFINITION. What an implementation fixes (the parameters of R5), the host's open parameter of R110, and what the environment supplies (the input
pins of R39 and R64, and the free inputs of a cycle for which the state lists none). -/

namespace Sys2Proof

/-- The parameters of R5, in microseconds but for the first. They are configuration, not state (R15): no step
changes them. `SAMPLE_US = 1`, `NBITS = 40` and `SYNC_STAGES = 2` are fixed by R5 and have no field. -/
structure Params where
  /-- `CYCLES_PER_US` (OPEN, D2): `clk` cycles per tick. -/
  cyclesPerUs : Nat
  /-- `POWERUP_US` (OPEN, D14): ticks that INIT waits before its start signal. -/
  powerupUs : Nat
  /-- `START_LOW_US`: ticks of the start signal. -/
  startLowUs : Nat
  /-- `TO_ACK_LO_US`: timeout of WAIT_ACK_LO. -/
  toAckLoUs : Nat
  /-- `TO_ACK_HI_US`: timeout of WAIT_ACK_HI. -/
  toAckHiUs : Nat
  /-- `TO_DATA_LO_US`: timeout of WAIT_DATA_LO. -/
  toDataLoUs : Nat
  /-- `TO_BIT_HI_US`: timeout of WAIT_BIT_HI. -/
  toBitHiUs : Nat
  /-- `TO_BIT_LO_US`: timeout of WAIT_BIT_LO. -/
  toBitLoUs : Nat
deriving DecidableEq, Repr

/-- The data bits of a frame, `NBITS` (R5, fixed). -/
def nbits : Nat := 40

/-- The parameters with the defaults of R5 for the six budgets, and the two OPEN ones as arguments. -/
def Params.withDefaults (cyclesPerUs powerupUs : Nat) : Params :=
  { cyclesPerUs := cyclesPerUs, powerupUs := powerupUs, startLowUs := 1000, toAckLoUs := 40, toAckHiUs := 80,
    toDataLoUs := 80, toBitHiUs := 65, toBitLoUs := 75 }

/-- The parameters that `State.reset` carries. DESIGN CHOICE (log entry 1), unsafe: `CYCLES_PER_US = 4` and
`POWERUP_US = 0`, the values of the programs of 95_test_vectors.md, where R5 says OPEN. No statement rests on
them: statements hold for every configuration that meets R6, and of `State.resetWith p` for every `p`. -/
def Params.chosen : Params := Params.withDefaults 4 0

/-- The platform precondition of R138, `CYCLES_PER_US >= 3 + t_rise`: the first WAIT_ACK_LO sample shows the
released line. No rule of the block depends on it. -/
def Params.meetsReleaseBound (p : Params) (tRise : Nat) : Bool := decide (3 + tRise ≤ p.cyclesPerUs)

/-- `TEMP_SIGN_CONVENTION` (OPEN; R110, D25, I4): the host's reading of the raw temperature word, in tenths of a unit. It
is the host's parameter and not the block's, so no field of the state holds it and no step reads it: what depends on it
takes it as an argument. Nothing is assumed of it, neither a sign bit nor an offset; that it is a function of the word
alone is the model's form (log entry 15). -/
abbrev TempSignConvention : Type := BitVec 16 → Rat

/-- The word as R109's formula takes it, with no sign and no offset. -/
def TempSignConvention.unsigned : TempSignConvention := fun w => w.toNat

/-- The inputs `I_n` of one cycle (R64): reset, the line level, and the host port of R39. -/
structure Pins where
  /-- `rst`, active high (R129). -/
  rst : Bool
  /-- `dq_i`, the level of the line (R34, R127). -/
  dqI : Bool
  /-- `bus_sel`: a transaction happens in this cycle. -/
  busSel : Bool
  /-- `bus_we`: 1 write, 0 read; meaningful only with `busSel`. -/
  busWe : Bool
  /-- `bus_addr`, the word index. -/
  busAddr : BitVec 3
  /-- `bus_wdata`. -/
  busWdata : Word
deriving DecidableEq, Repr, Inhabited

/-- A bus-idle cycle (R80) with the given line level and no reset. -/
def Pins.idle (dqI : Bool) : Pins :=
  { rst := false, dqI := dqI, busSel := false, busWe := false, busAddr := 0, busWdata := 0 }

/-- The inputs of a cycle for which the state lists none: FREE (R8, R127, U2). The host and the line are
unconstrained, so nothing is known of this function. It is applied to the number of the cycle. -/
opaque Config.envPins : Nat → Pins

end Sys2Proof
end

