-- ==== Sys2Proof/Syntax.lean ====
section
/-! DEFINITION. The names of the spec: the eight phases (R59), the results that `finish` can be given (R58), and
`Instr`, one constructor per row of opcode_table.json. -/

namespace Sys2Proof

/-- The sequencer state `phase` (R17, R59). -/
inductive Phase where
  | idle
  | powerup
  | start
  | waitAckLo
  | waitAckHi
  | waitDataLo
  | waitBitHi
  | waitBitLo
deriving DecidableEq, Repr

/-- The results an operation can end with (R58, R114). NONE (code 0) is left by reset only: no operation ends
with it. -/
inductive Result where
  | ok
  | timeout
  | checksum
  | notReady
  | invalidArg
deriving DecidableEq, Repr

/-- What the block can be made to do in a cycle: the host transactions (30_encoding.md R57) and the sequencer's phase
operations (R59, R88). Bits a transaction ignores are operands too (`dc`, don't-care), so that a word and its
instruction determine each other. -/
inductive Instr where
  /-- RD_CMD (R65); `dc` is `bus_wdata`, ignored on a read. -/
  | rdCmd (dc : Word)
  /-- RD_CTRL (R66). -/
  | rdCtrl (dc : Word)
  /-- RD_STATUS (R67). -/
  | rdStatus (dc : Word)
  /-- RD_DATA (R68). -/
  | rdData (dc : Word)
  /-- RD_RSVD (R69): a read of word index `addr`, 4 to 7. -/
  | rdRsvd (addr : BitVec 3) (dc : Word)
  /-- CMD_NOP (R75); `dc` is `bus_wdata[31:2]`, ignored (R54). -/
  | cmdNop (dc : BitVec 30)
  /-- CMD_INIT (R76). -/
  | cmdInit (dc : BitVec 30)
  /-- CMD_ACQUIRE (R77). -/
  | cmdAcquire (dc : BitVec 30)
  /-- CMD_RSVD (R78). -/
  | cmdRsvd (dc : BitVec 30)
  /-- WR_CTRL (R70): `d` is `bus_wdata` (R55). -/
  | wrCtrl (d : Word)
  /-- WR_STATUS (R71): `d` is `bus_wdata` (R56). -/
  | wrStatus (d : Word)
  /-- WR_DATA (R72): `d` is ignored. -/
  | wrData (d : Word)
  /-- WR_RSVD (R73): a write of word index `addr`, 4 to 7; `d` is ignored. -/
  | wrRsvd (addr : BitVec 3) (d : Word)
  /-- BUS_IDLE (R80): a cycle with `bus_sel = 0`. -/
  | busIdle
  /-- PHASE_IDLE (R89). -/
  | phaseIdle
  /-- PHASE_POWERUP (R81). -/
  | phasePowerup
  /-- PHASE_START (R82). -/
  | phaseStart
  /-- PHASE_WAIT_ACK_LO (R84). -/
  | phaseWaitAckLo
  /-- PHASE_WAIT_ACK_HI (R85). -/
  | phaseWaitAckHi
  /-- PHASE_WAIT_DATA_LO (R86). -/
  | phaseWaitDataLo
  /-- PHASE_WAIT_BIT_HI (R93). -/
  | phaseWaitBitHi
  /-- PHASE_WAIT_BIT_LO (R94). -/
  | phaseWaitBitLo
deriving DecidableEq, Repr

end Sys2Proof
end

