-- ==== Sys2Proof/WellFormed.lean ====
section
/-! DEFINITION. The checks: an instruction names a word index its row has (R57), and a configuration meets R6. -/

namespace Sys2Proof

/-- A reserved word index is one of 4 to 7 (R42): its bit 2 is set. -/
def reservedAddr (a : BitVec 3) : Bool := a.getLsbD 2

/-- An instruction is well formed when its row can carry its operands: RD_RSVD and WR_RSVD name a word index 4 to 7
(R69, R73). Every other operand is a whole field of the transaction word. -/
def Instr.wf : Instr → Bool
  | .rdCmd _ => true
  | .rdCtrl _ => true
  | .rdStatus _ => true
  | .rdData _ => true
  | .rdRsvd a _ => reservedAddr a
  | .cmdNop _ => true
  | .cmdInit _ => true
  | .cmdAcquire _ => true
  | .cmdRsvd _ => true
  | .wrCtrl _ => true
  | .wrStatus _ => true
  | .wrData _ => true
  | .wrRsvd a _ => reservedAddr a
  | .busIdle => true
  | .phaseIdle => true
  | .phasePowerup => true
  | .phaseStart => true
  | .phaseWaitAckLo => true
  | .phaseWaitAckHi => true
  | .phaseWaitDataLo => true
  | .phaseWaitBitHi => true
  | .phaseWaitBitLo => true

/-- The constraints of R6 (`POWERUP_US >= 0` holds of every natural number). A configuration that breaks one is
refused by `step` (U3, U4). -/
def Params.wf (p : Params) : Bool :=
  decide (1 ≤ p.cyclesPerUs) && decide (1 ≤ p.startLowUs) && decide (1 ≤ p.toAckLoUs) &&
    decide (1 ≤ p.toAckHiUs) && decide (1 ≤ p.toDataLoUs) && decide (1 ≤ p.toBitHiUs) && decide (1 ≤ p.toBitLoUs)

end Sys2Proof
end

