-- ==== Sys2Proof/Decode.lean ====
section
/-! DEFINITION. Decoding (R53, R57, R59), total; after it the encoder, from the same tables; the opcode table's
match and mask rows; and the entry the host asks by (`decodeTableWord`). -/

namespace Sys2Proof

/-- What a part of the block is presented with in a cycle: a transaction word (R53), no transaction (R80), or, for
the sequencer, the 3-bit phase code (R59). -/
inductive Slot where
  | bus (t : Txn)
  | idle
  | phase (code : BitVec 3)
deriving DecidableEq, Repr

/-- The phase codes of R59. -/
def Phase.code : Phase → BitVec 3
  | .idle => 0
  | .powerup => 1
  | .start => 2
  | .waitAckLo => 3
  | .waitAckHi => 4
  | .waitDataLo => 5
  | .waitBitHi => 6
  | .waitBitLo => 7

/-- The phase of a code; all eight are used (R59). -/
def Phase.ofCode (c : BitVec 3) : Phase :=
  if c = 0 then .idle
  else if c = 1 then .powerup
  else if c = 2 then .start
  else if c = 3 then .waitAckLo
  else if c = 4 then .waitAckHi
  else if c = 5 then .waitDataLo
  else if c = 6 then .waitBitHi
  else .waitBitLo

/-- The sequencer operation of a phase: `phase` plays the part of a program counter (R17). -/
def Phase.op : Phase → Instr
  | .idle => .phaseIdle
  | .powerup => .phasePowerup
  | .start => .phaseStart
  | .waitAckLo => .phaseWaitAckLo
  | .waitAckHi => .phaseWaitAckHi
  | .waitDataLo => .phaseWaitDataLo
  | .waitBitHi => .phaseWaitBitHi
  | .waitBitLo => .phaseWaitBitLo

/-- `T[35] = bus_we` (R53). -/
def Txn.we (t : Txn) : Bool := t.getLsbD 35

/-- `T[34:32] = bus_addr` (R53). -/
def Txn.addr (t : Txn) : BitVec 3 := t.extractLsb' 32 3

/-- `T[31:0] = bus_wdata` (R53). -/
def Txn.wdata (t : Txn) : Word := t.extractLsb' 0 32

/-- `OP = wdata[1:0]` of a CMD write (R54). -/
def Txn.op (t : Txn) : BitVec 2 := t.extractLsb' 0 2

/-- `wdata[31:2]` of a CMD write, ignored (R54). -/
def Txn.opIgnored (t : Txn) : BitVec 30 := t.extractLsb' 2 30

/-- The read half of the opcode map (R57). -/
def decodeRead (t : Txn) : Instr :=
  if Txn.addr t = 0 then .rdCmd (Txn.wdata t)
  else if Txn.addr t = 1 then .rdCtrl (Txn.wdata t)
  else if Txn.addr t = 2 then .rdStatus (Txn.wdata t)
  else if Txn.addr t = 3 then .rdData (Txn.wdata t)
  else .rdRsvd (Txn.addr t) (Txn.wdata t)

/-- A write of word 0, by its OP field (R54, R57). -/
def decodeCommand (t : Txn) : Instr :=
  if Txn.op t = 0 then .cmdNop (Txn.opIgnored t)
  else if Txn.op t = 1 then .cmdInit (Txn.opIgnored t)
  else if Txn.op t = 2 then .cmdAcquire (Txn.opIgnored t)
  else .cmdRsvd (Txn.opIgnored t)

/-- The write half of the opcode map (R57). -/
def decodeWrite (t : Txn) : Instr :=
  if Txn.addr t = 0 then decodeCommand t
  else if Txn.addr t = 1 then .wrCtrl (Txn.wdata t)
  else if Txn.addr t = 2 then .wrStatus (Txn.wdata t)
  else if Txn.addr t = 3 then .wrData (Txn.wdata t)
  else .wrRsvd (Txn.addr t) (Txn.wdata t)

/-- Decoding of a transaction word; every word is some row's (R57). -/
def decodeTxn (t : Txn) : Instr := if Txn.we t then decodeWrite t else decodeRead t

/-- Decoding, total (R57, R59, R80). -/
def decode : Slot → Instr
  | .bus t => decodeTxn t
  | .idle => .busIdle
  | .phase c => (Phase.ofCode c).op

/-- The transaction word of R53, from its three fields. -/
def mkTxn (we : Bool) (addr : BitVec 3) (wdata : Word) : Txn := BitVec.ofBool we ++ addr ++ wdata

/-- The word of a CMD write, from OP and the ignored bits (R54). -/
def mkCmd (op : BitVec 2) (dc : BitVec 30) : Txn := mkTxn true 0 (dc ++ op)

/-- The encoder: what presents the block with a well-formed instruction (R53 to R57, R59). -/
def encode : Instr → Slot
  | .rdCmd dc => .bus (mkTxn false 0 dc)
  | .rdCtrl dc => .bus (mkTxn false 1 dc)
  | .rdStatus dc => .bus (mkTxn false 2 dc)
  | .rdData dc => .bus (mkTxn false 3 dc)
  | .rdRsvd a dc => .bus (mkTxn false a dc)
  | .cmdNop dc => .bus (mkCmd 0 dc)
  | .cmdInit dc => .bus (mkCmd 1 dc)
  | .cmdAcquire dc => .bus (mkCmd 2 dc)
  | .cmdRsvd dc => .bus (mkCmd 3 dc)
  | .wrCtrl d => .bus (mkTxn true 1 d)
  | .wrStatus d => .bus (mkTxn true 2 d)
  | .wrData d => .bus (mkTxn true 3 d)
  | .wrRsvd a d => .bus (mkTxn true a d)
  | .busIdle => .idle
  | .phaseIdle => .phase 0
  | .phasePowerup => .phase 1
  | .phaseStart => .phase 2
  | .phaseWaitAckLo => .phase 3
  | .phaseWaitAckHi => .phase 4
  | .phaseWaitDataLo => .phase 5
  | .phaseWaitBitHi => .phase 6
  | .phaseWaitBitLo => .phase 7

/-- A row of opcode_table.json as that file gives it: `match` and `mask` over the transaction word, the cycle with no
word, or `match` and `mask` over the phase code. -/
inductive TableRow where
  | bus (pattern mask : Txn)
  | noWord
  | phase (pattern mask : BitVec 3)
deriving DecidableEq, Repr

/-- Whether a row's match and mask accept what is presented. -/
def TableRow.accepts : TableRow → Slot → Bool
  | .bus m k, .bus t => decide (t &&& k = m)
  | .noWord, .idle => true
  | .phase m k, .phase c => decide (c &&& k = m)
  | _, _ => false

/-- The table of opcode_table.json, row by row, in its order. -/
def opcodeTable : List TableRow :=
  [.bus 0x000000000 0xf00000000, .bus 0x100000000 0xf00000000, .bus 0x200000000 0xf00000000,
   .bus 0x300000000 0xf00000000, .bus 0x400000000 0xc00000000, .bus 0x800000000 0xf00000003,
   .bus 0x800000001 0xf00000003, .bus 0x800000002 0xf00000003, .bus 0x800000003 0xf00000003] ++
  [.bus 0x900000000 0xf00000000, .bus 0xa00000000 0xf00000000, .bus 0xb00000000 0xf00000000,
   .bus 0xc00000000 0xc00000000, .noWord] ++
  [.phase 0 7, .phase 1 7, .phase 2 7, .phase 3 7, .phase 4 7, .phase 5 7, .phase 6 7, .phase 7 7]

/-- The place of an instruction's row in `opcodeTable`. -/
def Instr.rowIndex : Instr → Nat
  | .rdCmd _ => 0
  | .rdCtrl _ => 1
  | .rdStatus _ => 2
  | .rdData _ => 3
  | .rdRsvd _ _ => 4
  | .cmdNop _ => 5
  | .cmdInit _ => 6
  | .cmdAcquire _ => 7
  | .cmdRsvd _ => 8
  | .wrCtrl _ => 9
  | .wrStatus _ => 10
  | .wrData _ => 11
  | .wrRsvd _ _ => 12
  | .busIdle => 13
  | .phaseIdle => 14
  | .phasePowerup => 15
  | .phaseStart => 16
  | .phaseWaitAckLo => 17
  | .phaseWaitAckHi => 18
  | .phaseWaitDataLo => 19
  | .phaseWaitBitHi => 20
  | .phaseWaitBitLo => 21

/-- The transaction word that the host port carries (R53). -/
def Pins.txn (p : Pins) : Txn := mkTxn p.busWe p.busAddr p.busWdata

/-- What HOST decodes in a cycle: the word, or no transaction when `bus_sel = 0` (R53, R57, R80). -/
def Pins.slot (p : Pins) : Slot := if p.busSel then .bus p.txn else .idle

/-- The port of a cycle that carries the word `t`. -/
def Pins.ofTxn (dqI : Bool) (t : Txn) : Pins :=
  { rst := false, dqI := dqI, busSel := true, busWe := Txn.we t, busAddr := Txn.addr t, busWdata := Txn.wdata t }

/-- Why a numbered word of the table is no instruction of this hardware. -/
inductive DecodeReject where
  /-- a word of more than 36 bits is no transaction (R53) -/
  | noSuchTransaction
  /-- a code of more than 3 bits is no phase (R59) -/
  | noSuchPhase
deriving DecidableEq, Repr

/-- The slot of an opcode-table row's word: no bits, the cycle without a transaction; up to one byte, a phase code;
more, a transaction word. -/
def tableSlot (nbits w : Nat) : Except DecodeReject Slot :=
  if nbits = 0 then .ok .idle
  else if nbits ≤ 8 then
    if w < 8 then .ok (.phase (BitVec.ofNat 3 w)) else .error .noSuchPhase
  else
    if w < 2 ^ 36 then .ok (.bus (BitVec.ofNat 36 w)) else .error .noSuchTransaction

/-- The instruction that the decoder reads from an opcode-table row's word. -/
def decodeTableWord (nbits w : Nat) : Option Instr :=
  match tableSlot nbits w with
  | .ok e => some (decode e)
  | .error _ => none

end Sys2Proof
end

