-- ==== Sys2Proof/Machine/State.lean ====
section
/-! DEFINITION. The state: the tuple of R15 (`Block`), and beside it the model's own fields (the parameters, the coming
inputs, the outputs of the cycle just run); the faults and refusals; the state after reset (R38). -/

namespace Sys2Proof.Machine

/-- The complete state `S` of the block (R15). -/
structure Block where
  /-- the sequencer state (R17) -/
  phase : Phase
  /-- the microsecond prescaler, `0 .. CYCLES_PER_US - 1` (R33) -/
  presc : Nat
  /-- ticks elapsed in the current phase (R29) -/
  cnt : Nat
  /-- `low_dur`, the `lowDuration` of the current bit, `0 .. TO_BIT_HI_US` (R30) -/
  lowDur : Nat
  /-- data bits received, 0 .. 40 (R31) -/
  bitidx : Nat
  /-- the 40-bit shift register (R28) -/
  sr : Frame
  /-- the current acquisition is an INIT (R32) -/
  isInit : Bool
  /-- first stage of the line synchroniser (R34) -/
  sync1 : Bool
  /-- second stage; the sampled level `dq_s` (R34) -/
  sync2 : Bool
  /-- the line's drive-low enable (R35) -/
  dqOe : Bool
  /-- CTRL.IE (R19) -/
  ie : Bool
  /-- STATUS.DONE (R22) -/
  done : Bool
  /-- STATUS.READY (R21) -/
  ready : Bool
  /-- STATUS.DROP (R23) -/
  drop : Bool
  /-- STATUS.RESULT, a code of R58 (R24) -/
  result : BitVec 3
  /-- DATA[31:16] (R26) -/
  hum : BitVec 16
  /-- DATA[15:0] (R26) -/
  temp : BitVec 16
deriving DecidableEq, Repr

/-- The outputs of one cycle (R35, R37, R39). -/
structure Outputs where
  /-- `bus_rdata` -/
  busRdata : Word
  /-- `irq` -/
  irq : Bool
  /-- `dq_oe_pin` -/
  dqOePin : Bool
deriving DecidableEq, Repr

/-- The machine: the block's state, with the model's own fields `cfg` (log entry 1), `inputs` and `cycle` (log entry
2), and `out`, the outputs of the cycle just run (log entry 5). -/
structure State where
  /-- the parameters of R5; no step changes them -/
  cfg : Params
  /-- the block's state (R15) -/
  blk : Block
  /-- the inputs of the coming cycles, the next first (R8, R64) -/
  inputs : List Pins
  /-- cycles run; it only indexes the free inputs `Config.envPins` -/
  cycle : Nat
  /-- the outputs of the cycle just run -/
  out : Outputs
deriving DecidableEq, Repr

/-- Faults. There is none: every rule is total over every host and line sequence (R57, R127), and 93 says that no
entry is `stuck`. Nobody raises a fault, which is safe: nothing of the spec's is hidden in one. -/
inductive Fault where
deriving DecidableEq, Repr

/-- Refusals. -/
inductive Refusal where
  /-- An instruction without a meaning, rejected in `exec`'s arm; no arm of this model raises it. Safe. -/
  | notModelled (mnemonic : String)
  /-- Raised by `step` for a configuration that breaks R6: "A configuration that breaks a constraint is refused"
  (U3, U4). No instruction raises it. Safe: no such block may be built. -/
  | invalidConfig
deriving DecidableEq, Repr

/-- `RESET_STATE` (R38, R129). -/
def Block.reset : Block :=
  { phase := .idle, presc := 0, cnt := 0, lowDur := 0, bitidx := 0, sr := 0, isInit := false, sync1 := true,
    sync2 := true, dqOe := false, ie := false, done := false, ready := false, drop := false, result := 0, hum := 0,
    temp := 0 }

/-- The outputs of a cycle in the reset state with no read (R38, R39). -/
def Outputs.reset : Outputs := { busRdata := 0, irq := false, dqOePin := false }

/-- The machine right after reset, with the parameters `p` (R38). -/
def State.resetWith (p : Params) : State :=
  { cfg := p, blk := Block.reset, inputs := [], cycle := 0, out := Outputs.reset }

/-- The machine right after reset. Its parameters are `Params.chosen` (log entry 1). -/
def State.reset : State := State.resetWith Params.chosen

/-- The state with another block state. -/
def State.setBlk (s : State) (b : Block) : State := { s with blk := b }

/-- The state with another `bus_rdata` in this cycle's outputs. -/
def State.setRdata (s : State) (v : Word) : State := { s with out := { s.out with busRdata := v } }

end Sys2Proof.Machine
end

