-- ==== Sys2Proof/Machine/Operands.lean ====
section
/-! DEFINITION. The operand fields of the write data (R55, R56) and the fields of a received frame (R13). -/

namespace Sys2Proof.Machine

/-- CTRL write data: the new IE is `wdata[0]` (R55). -/
def ctrlIe (d : Word) : Bool := d.getLsbD 0

/-- STATUS write data: `wdata[1] = 1` clears DONE (R56). -/
def clearsDone (d : Word) : Bool := d.getLsbD 1

/-- STATUS write data: `wdata[3] = 1` clears DROP (R56). -/
def clearsDrop (d : Word) : Bool := d.getLsbD 3

/-- `byte(sr, k) = sr[39 - 8k : 32 - 8k]`, byte 0 the first received (R13). -/
def frameByte (f : Frame) (k : Nat) : Byte := f.extractLsb' (32 - 8 * k) 8

/-- `hum(sr) = sr[39:24]` (R13, R105). -/
def frameHum (f : Frame) : BitVec 16 := f.extractLsb' 24 16

/-- `temp(sr) = sr[23:8]` (R13, R105). -/
def frameTemp (f : Frame) : BitVec 16 := f.extractLsb' 8 16

/-- `{sr[38:0], b}`: shift left by one, the new bit at bit 0, the old bit 39 discarded (R96). -/
def shiftIn (f : Frame) (b : Bool) : Frame := f.extractLsb' 0 39 ++ BitVec.ofBool b

/-- The result codes of R58. NONE is code 0, in `Block.reset` only. -/
def resultCode : Result → BitVec 3
  | .ok => 1
  | .timeout => 2
  | .checksum => 3
  | .notReady => 4
  | .invalidArg => 5

end Sys2Proof.Machine
end

