-- ==== Sys2Proof/Machine/Flags.lean ====
section
/-! DEFINITION. What is computed from the state and has no register of its own: `busy`, `tick`, `irq`, `dq_oe_pin`,
the register words (R49), the pulse-width comparator (R95) and the checksum (R103). -/

namespace Sys2Proof.Machine

/-- `busy = (phase != IDLE)` (R18). -/
def Block.busy (b : Block) : Bool := decide (b.phase ≠ .idle)

/-- `tick = busy && (presc == CYCLES_PER_US - 1)` (R36). -/
def Block.tick (p : Params) (b : Block) : Bool := b.busy && decide (b.presc = p.cyclesPerUs - 1)

/-- The interrupt output `irq = ie && done` (R37). -/
def Block.irq (b : Block) : Bool := b.ie && b.done

/-- The pin `dq_oe_pin = dq_oe && !rst` (R35, R131). -/
def Block.dqOePin (b : Block) (rst : Bool) : Bool := b.dqOe && !rst

/-- CTRL as a word (R19, R49). -/
def Block.ctrlWord (b : Block) : Word := (BitVec.ofBool b.ie).zeroExtend 32

/-- STATUS `= {25'b0, result[2:0], drop, ready, done, busy}` (R25). -/
def Block.statusWord (b : Block) : Word :=
  0#25 ++ b.result ++ BitVec.ofBool b.drop ++ BitVec.ofBool b.ready ++ BitVec.ofBool b.done ++ BitVec.ofBool b.busy

/-- DATA `= {hum[15:0], temp[15:0]}` (R26). -/
def Block.dataWord (b : Block) : Word := b.hum ++ b.temp

/-- `RegRead(S, a)` for a word index 0 to 7 (R49). -/
def Block.regRead (b : Block) (a : BitVec 3) : Word :=
  if a = 1 then b.ctrlWord
  else if a = 2 then b.statusWord
  else if a = 3 then b.dataWord
  else 0

/-- The comparator: 1 exactly when the high duration exceeds the low one (R95). -/
def bitval (h l : Nat) : Bool := decide (l < h)

/-- `sum8(sr)`: the first four bytes added as unsigned integers, mod 256 (R13, R103). -/
def sum8 (f : Frame) : Byte := frameByte f 0 + frameByte f 1 + frameByte f 2 + frameByte f 3

/-- The checksum test of `validate` (R102): an 8-bit equality. -/
def frameValid (f : Frame) : Bool := decide (sum8 f = frameByte f 4)

end Sys2Proof.Machine
end

