-- ==== Sys2Proof/Machine/Ops.lean ====
section
/-! DEFINITION. The operations the instructions share: completion (`finish`, the block's one "exception") and the
return from it, the acquisition start, the command gate, the timed wait, the validation, the synchroniser and the
prescaler; and what strings outcomes together. -/

namespace Sys2Proof.Machine

/-- What a cycle or one of its parts answers. -/
abbrev Answer := Host.Outcome State Fault Refusal

/-- Continue from a next state; a fault or a refusal stays one. -/
def andThen (o : Answer) (k : State → Answer) : Answer :=
  match o with
  | .next s => k s
  | .fault r => .fault r
  | .refused r => .refused r

/-- An instruction whose whole effect is on the block's registers. -/
def State.update (s : State) (g : Block → Block) : Answer := .next (s.setBlk (g s.blk))

/-! ## Completion -/

/-- DATA[31:16] after `finish(res)` (R105, R106, R107): the frame's word on OK, 0 on a failed acquisition, unchanged
on INVALID_ARG. -/
def Block.humAfter (res : Result) (f : Frame) (b : Block) : BitVec 16 :=
  match res with
  | .ok => frameHum f
  | .timeout => 0
  | .checksum => 0
  | .notReady => 0
  | .invalidArg => b.hum

/-- DATA[15:0] after `finish(res)` (R105, R106, R107). -/
def Block.tempAfter (res : Result) (f : Frame) (b : Block) : BitVec 16 :=
  match res with
  | .ok => frameTemp f
  | .timeout => 0
  | .checksum => 0
  | .notReady => 0
  | .invalidArg => b.temp

/-- Whether a result ends an acquisition: OK, TIMEOUT or CHECKSUM (R106). -/
def endsAcquisition : Result → Bool
  | .ok => true
  | .timeout => true
  | .checksum => true
  | .notReady => false
  | .invalidArg => false

/-- READY after `finish(res)`: only a finish that ends an INIT's acquisition writes it (R108). -/
def Block.readyAfter (res : Result) (b : Block) : Bool :=
  if endsAcquisition res && b.isInit then decide (res = .ok) else b.ready

/-- `finish(res)` with the frame `f` (R106): the only way an operation ends, one edge for the whole commit (R117).
`sr`, `bitidx`, `low_dur` and `is_init` stay as they are. -/
def Block.finish (res : Result) (f : Frame) (b : Block) : Block :=
  { b with
    phase := .idle, dqOe := false, cnt := 0, done := true, result := resultCode res,
    hum := b.humAfter res f, temp := b.tempAfter res f, ready := b.readyAfter res }

/-- The host's return from a completion (R121): a W1C of DONE. Nothing is restored. -/
def Block.clearDone (b : Block) : Block := { b with done := false }

/-- The W1C of DROP (R23, R71). -/
def Block.clearDrop (b : Block) : Block := { b with drop := false }

/-- `validate(f)` (R102, R104): OK or CHECKSUM, in the cycle of the 40th bit's end. -/
def Block.validate (f : Frame) (b : Block) : Block :=
  if frameValid f then b.finish .ok f else b.finish .checksum f

/-! ## Commands -/

/-- Whether an acquisition begins with the power-up wait: INIT with `POWERUP_US > 0` (R79, R81). -/
def powersUp (p : Params) (init : Bool) : Bool := init && decide (0 < p.powerupUs)

/-- The acquisition-start procedure `startAcq(init)` (R79). -/
def Block.startAcq (p : Params) (init : Bool) (b : Block) : Block :=
  { b with
    done := false, isInit := init, sr := 0, bitidx := 0, cnt := 0, lowDur := 0, presc := 0,
    phase := if powersUp p init then .powerup else .start, dqOe := !powersUp p init }

/-- The gate of R74 for a non-NOP command: dropped and flagged while busy, otherwise performed. -/
def Block.command (act : Block → Block) (b : Block) : Block :=
  if b.busy then { b with drop := true } else act b

/-- ACQUIRE when not busy (R77): NOT_READY at once, or the start of an acquisition. -/
def Block.acquire (p : Params) (b : Block) : Block :=
  if b.ready then b.startAcq p false else b.finish .notReady b.sr

/-! ## The sequencer -/

/-- `Wait(L, T, next)` at a tick (R83): success with duration `j`, TIMEOUT at the `T`-th tick (R87), or one more tick
counted. "Level seen" comes before "timeout" (R119 (g)). -/
def Block.wait (level : Bool) (timeout : Nat) (onSeen : Nat → Block → Block) (b : Block) : Block :=
  if b.sync2 = level then onSeen (b.cnt + 1) { b with cnt := 0 }
  else if timeout ≤ b.cnt + 1 then b.finish .timeout b.sr
  else { b with cnt := b.cnt + 1 }

/-- A phase of fixed length (R81, R82): count, or go on at its last tick. -/
def Block.count (length : Nat) (onEnd : Block → Block) (b : Block) : Block :=
  if b.cnt + 1 = length then onEnd { b with cnt := 0 } else { b with cnt := b.cnt + 1 }

/-- The end of a data bit with high duration `h` (R94): compare, shift, count, and validate after the 40th. -/
def Block.bitDone (h : Nat) (b : Block) : Block :=
  let f := shiftIn b.sr (bitval h b.lowDur)
  let c : Block := { b with sr := f, bitidx := b.bitidx + 1 }
  if b.bitidx + 1 = nbits then c.validate f else { c with phase := .waitBitHi }

/-- The prescaler of a busy cycle: `presc <- (presc + 1) mod CYCLES_PER_US` (R33, R88), with `presc` the value in
`S_n`. -/
def Block.advancePresc (p : Params) (presc : Nat) (b : Block) : Block :=
  { b with presc := (presc + 1) % p.cyclesPerUs }

/-- The synchroniser, in every cycle: `sync1 <- dq_i`, `sync2 <- sync1` (R34), with `sync1` the value in `S_n`. -/
def Block.synchronise (dqI sync1 : Bool) (b : Block) : Block := { b with sync1 := dqI, sync2 := sync1 }

end Sys2Proof.Machine
end

