-- ==== Sys2Proof/Machine/Bits.lean ====
section
/-! DEFINITION. The two measuring waits of a data bit (42_bit_reception.md). -/

namespace Sys2Proof.Machine

/-- PHASE_WAIT_BIT_HI (R93): the duration of the low is kept in `low_dur`. -/
def execPhaseWaitBitHi (s : State) : Answer :=
  s.update (Block.wait true s.cfg.toBitHiUs fun j b => { b with lowDur := j, phase := .waitBitLo })

/-- PHASE_WAIT_BIT_LO (R94): the bit is decided, shifted in and counted. -/
def execPhaseWaitBitLo (s : State) : Answer :=
  s.update (Block.wait false s.cfg.toBitLoUs Block.bitDone)

end Sys2Proof.Machine
end

