-- ==== Sys2Proof/Machine/Commands.lean ====
section
/-! DEFINITION. The commands (40_host_commands.md section 4, R74 to R79). -/

namespace Sys2Proof.Machine

/-- CMD_NOP (R75): no state change, whether busy or not. -/
def execCmdNop (_dc : BitVec 30) (s : State) : Answer := s.update fun b => b

/-- CMD_INIT (R74, R76): dropped while busy, otherwise `startAcq(1)`. -/
def execCmdInit (_dc : BitVec 30) (s : State) : Answer := s.update fun b => b.command (Block.startAcq s.cfg true)

/-- CMD_ACQUIRE (R74, R77): dropped while busy, otherwise `startAcq(0)` or NOT_READY. -/
def execCmdAcquire (_dc : BitVec 30) (s : State) : Answer := s.update fun b => b.command (Block.acquire s.cfg)

/-- CMD_RSVD (R74, R78): dropped while busy, otherwise `finish(INVALID_ARG)`. -/
def execCmdRsvd (_dc : BitVec 30) (s : State) : Answer :=
  s.update fun b => b.command (Block.finish .invalidArg b.sr)

end Sys2Proof.Machine
end

