-- ==== Sys2Proof/Machine/Handshake.lean ====
section
/-! DEFINITION. The idle phase, the power-up wait, the start signal and the three acknowledge waits
(41_start_handshake.md). Each but the idle one is what a tick does in its phase (R88). -/

namespace Sys2Proof.Machine

/-- PHASE_IDLE (R89, R33): `presc <- 0`, and nothing else. -/
def execPhaseIdle (s : State) : Answer := s.update fun b => { b with presc := 0 }

/-- PHASE_POWERUP (R81). -/
def execPhasePowerup (s : State) : Answer :=
  s.update (Block.count s.cfg.powerupUs fun b => { b with phase := .start, dqOe := true })

/-- PHASE_START (R82): after `START_LOW_US` ticks the line is released. -/
def execPhaseStart (s : State) : Answer :=
  s.update (Block.count s.cfg.startLowUs fun b => { b with phase := .waitAckLo, dqOe := false })

/-- PHASE_WAIT_ACK_LO (R84). -/
def execPhaseWaitAckLo (s : State) : Answer :=
  s.update (Block.wait false s.cfg.toAckLoUs fun _ b => { b with phase := .waitAckHi })

/-- PHASE_WAIT_ACK_HI (R85). -/
def execPhaseWaitAckHi (s : State) : Answer :=
  s.update (Block.wait true s.cfg.toAckHiUs fun _ b => { b with phase := .waitDataLo })

/-- PHASE_WAIT_DATA_LO (R86). -/
def execPhaseWaitDataLo (s : State) : Answer :=
  s.update (Block.wait false s.cfg.toDataLoUs fun _ b => { b with phase := .waitBitHi, bitidx := 0 })

end Sys2Proof.Machine
end

