-- ==== Sys2Proof/Machine/Reads.lean ====
section
/-! DEFINITION. The reads (40_host_commands.md section 2): `bus_rdata` of the cycle, and no other effect (R46). -/

namespace Sys2Proof.Machine

/-- A host read of word index `a`: `bus_rdata = RegRead(S_n, a)` (R11, R39, R49). -/
def State.readWord (s : State) (a : BitVec 3) : Answer := .next (s.setRdata (s.blk.regRead a))

/-- RD_CMD (R65): CMD reads 0. -/
def execRdCmd (_dc : Word) (s : State) : Answer := s.readWord 0

/-- RD_CTRL (R66): `zext_32(ie)`. -/
def execRdCtrl (_dc : Word) (s : State) : Answer := s.readWord 1

/-- RD_STATUS (R67). -/
def execRdStatus (_dc : Word) (s : State) : Answer := s.readWord 2

/-- RD_DATA (R68). -/
def execRdData (_dc : Word) (s : State) : Answer := s.readWord 3

/-- RD_RSVD (R69): a reserved word reads 0, whichever of the four it is. -/
def execRdRsvd (_addr : BitVec 3) (_dc : Word) (s : State) : Answer := .next (s.setRdata 0)

end Sys2Proof.Machine
end

