-- ==== Sys2Proof/Machine/Writes.lean ====
section
/-! DEFINITION. The register writes and the bus-idle cycle (40_host_commands.md sections 3 and 4, R70 to R73, R80). -/

namespace Sys2Proof.Machine

/-- WR_CTRL (R70): `ie <- d[0]`. -/
def execWrCtrl (d : Word) (s : State) : Answer := s.update fun b => { b with ie := ctrlIe d }

/-- WR_STATUS (R71): the W1C of DONE and of DROP, each by its bit. A `finish` of the same cycle comes after it and
wins (R119 (b)). -/
def execWrStatus (d : Word) (s : State) : Answer :=
  s.update fun b =>
    let c := if clearsDone d then b.clearDone else b
    if clearsDrop d then c.clearDrop else c

/-- WR_DATA (R72): no state change. -/
def execWrData (_d : Word) (s : State) : Answer := s.update fun b => b

/-- WR_RSVD (R73): no state change. -/
def execWrRsvd (_addr : BitVec 3) (_d : Word) (s : State) : Answer := s.update fun b => b

/-- BUS_IDLE (R80): HOST makes no change. -/
def execBusIdle (s : State) : Answer := s.update fun b => b

end Sys2Proof.Machine
end

