-- ==== Sys2Proof/Machine/Dispatch.lean ====
section
/-! DEFINITION. `exec`: one arm per constructor of `Instr`, each one direct call of its meaning. -/

namespace Sys2Proof.Machine

/-- What one instruction does: a host transaction's HOST part, or a phase's SEQ operation (R64). -/
def exec (i : Instr) (s : State) : Host.Outcome State Fault Refusal :=
  match i with
  | .rdCmd dc => Sys2Proof.Machine.execRdCmd dc s
  | .rdCtrl dc => Sys2Proof.Machine.execRdCtrl dc s
  | .rdStatus dc => Sys2Proof.Machine.execRdStatus dc s
  | .rdData dc => Sys2Proof.Machine.execRdData dc s
  | .rdRsvd addr dc => Sys2Proof.Machine.execRdRsvd addr dc s
  | .cmdNop dc => Sys2Proof.Machine.execCmdNop dc s
  | .cmdInit dc => Sys2Proof.Machine.execCmdInit dc s
  | .cmdAcquire dc => Sys2Proof.Machine.execCmdAcquire dc s
  | .cmdRsvd dc => Sys2Proof.Machine.execCmdRsvd dc s
  | .wrCtrl d => Sys2Proof.Machine.execWrCtrl d s
  | .wrStatus d => Sys2Proof.Machine.execWrStatus d s
  | .wrData d => Sys2Proof.Machine.execWrData d s
  | .wrRsvd addr d => Sys2Proof.Machine.execWrRsvd addr d s
  | .busIdle => Sys2Proof.Machine.execBusIdle s
  | .phaseIdle => Sys2Proof.Machine.execPhaseIdle s
  | .phasePowerup => Sys2Proof.Machine.execPhasePowerup s
  | .phaseStart => Sys2Proof.Machine.execPhaseStart s
  | .phaseWaitAckLo => Sys2Proof.Machine.execPhaseWaitAckLo s
  | .phaseWaitAckHi => Sys2Proof.Machine.execPhaseWaitAckHi s
  | .phaseWaitDataLo => Sys2Proof.Machine.execPhaseWaitDataLo s
  | .phaseWaitBitHi => Sys2Proof.Machine.execPhaseWaitBitHi s
  | .phaseWaitBitLo => Sys2Proof.Machine.execPhaseWaitBitLo s

end Sys2Proof.Machine
end

