-- ==== Sys2Proof/Machine/Cycle.lean ====
section
/-! DEFINITION. One clock cycle (R64): take the inputs, drive the outputs, run HOST and SEQ, and merge by R119; the
cycle that carries a given instruction; and the sampler-level run of the sample scripts of R63. -/

namespace Sys2Proof.Machine

/-- The inputs `I_n` of the coming cycle: the next listed ones, or free ones (log entry 2). -/
def State.pins (s : State) : Pins :=
  match s.inputs with
  | [] => Config.envPins s.cycle
  | p :: _ => p

/-- The start of a cycle with inputs `p`: they are taken off the list, and the outputs are driven from `S_n`
(R7, R35, R37). `bus_rdata` is 0 unless the cycle's transaction is a read (R39). -/
def State.begin (s : State) (p : Pins) : State :=
  { s with
    inputs := s.inputs.tail, cycle := s.cycle + 1,
    out := { busRdata := 0, irq := s.blk.irq, dqOePin := s.blk.dqOePin p.rst } }

/-- SEQ (R64, R88, R89), for the block state `b` that is `S_n`, after HOST's writes: in an idle cycle PHASE_IDLE; in a
busy one the phase's operation if there is a tick, and the prescaler's count. -/
def sequence (b : Block) (s : State) : Answer :=
  if b.busy then
    andThen (if b.tick s.cfg then exec (decode (.phase b.phase.code)) s else .next s) fun t =>
      .next (t.setBlk (t.blk.advancePresc t.cfg b.presc))
  else exec (decode (.phase b.phase.code)) s

/-- One cycle of a machine whose configuration is sound (R64). HOST runs before SEQ: what HOST may write in a busy
cycle (`ie`, `done`, `drop`) SEQ does not read, so both read `S_n` (R10), and where both write `done` the `finish`
comes last and wins (R119). With `rst` the block state is `RESET_STATE` whatever else happens, and a read still
returns `S_n` (R129). -/
def cycleWith (p : Pins) (s : State) : Answer :=
  andThen (exec (decode p.slot) (s.begin p)) fun t =>
    if p.rst then .next (t.setBlk Block.reset)
    else
      andThen (sequence s.blk t) fun u => .next (u.setBlk (u.blk.synchronise p.dqI s.blk.sync1))

/-- One clock cycle. A configuration that breaks R6 is refused (U3, U4). -/
def cycle (s : State) : Answer :=
  if s.cfg.wf then cycleWith s.pins s else .refused .invalidConfig

/-- The state in which the coming cycle runs what `e` presents: a transaction on the port, no transaction, or the
operation of a phase, whose cycle is then a tick (R36). The cycle inserted has no reset and the line released. -/
def State.present (s : State) (e : Slot) : State :=
  match e with
  | .bus t => { s with inputs := Pins.ofTxn true t :: s.inputs }
  | .idle => { s with inputs := Pins.idle true :: s.inputs }
  | .phase c =>
    if c = 0 then { s with inputs := Pins.idle true :: s.inputs, blk := { s.blk with phase := Phase.ofCode c } }
    else
      { s with
        inputs := Pins.idle true :: s.inputs,
        blk := { s.blk with phase := Phase.ofCode c, presc := s.cfg.cyclesPerUs - 1 } }

/-- `present` for an opcode-table row's word; a word that is no instruction changes nothing. -/
def State.presentWord (s : State) (nbits w : Nat) : State :=
  match tableSlot nbits w with
  | .ok e => s.present e
  | .error _ => s

/-- One tick of the sequencer that samples the level `v` of `dq_s` (R88: only that sample is read). -/
def State.sampleTick (v : Bool) (s : State) : Answer :=
  exec (decode (.phase s.blk.phase.code)) (s.setBlk { s.blk with sync2 := v })

/-- The ticks of a sample script (R63), the first sample first. -/
def sampleTicks : List Bool → State → Answer
  | [], s => .next s
  | v :: vs, s => andThen (s.sampleTick v) (sampleTicks vs)

end Sys2Proof.Machine
end

