-- ==== Sys2Proof/Machine/Step.lean ====
section
/-! DEFINITION. The machine's step, one clock cycle, and the placing of an instruction for the next one. -/

namespace Sys2Proof.Machine

/-- One step is one clock cycle, `S_{n+1} = Step(S_n, I_n)` (R7, R64). -/
def step (s : State) : Host.Outcome State Fault Refusal := cycle s

/-- `s` with the instruction of an opcode-table row's word where the next step takes its instruction from: on the host
port of the coming cycle, or in `phase` with a tick due. -/
def State.withFetchWord (s : State) (nbits w : Nat) : State := s.presentWord nbits w

end Sys2Proof.Machine
end

