-- ==== Sys2Proof/Machine/Program.lean ====
section
/-! DEFINITION. The textual programs of R62 and the pseudo-instructions of R63 as data, the line samples of a sample
script (R63), and the host's reading of DATA (R109, R110). -/

namespace Sys2Proof.Machine

/-- A line of a program (R62). -/
inductive Asm where
  /-- `RD <reg>` -/
  | rd (reg : BitVec 3)
  /-- `WR <reg>, <value>` -/
  | wr (reg : BitVec 3) (value : Word)
  /-- `IDLE <k>` -/
  | idle (k : Nat)
  /-- `RST` -/
  | rst
deriving DecidableEq, Repr

/-- The cycles of a program line, with the line level released (R62). -/
def Asm.cycles : Asm → List Pins
  | .rd a => [Pins.ofTxn true (mkTxn false a 0)]
  | .wr a v => [Pins.ofTxn true (mkTxn true a v)]
  | .idle k => List.replicate k (Pins.idle true)
  | .rst => [{ Pins.idle true with rst := true }]

/-- The cycles of a program whose lines carry their absolute cycle number (`@n`); cycles not listed are bus-idle. `now`
is the number of the first cycle. -/
def schedule (now : Nat) : List (Nat × Asm) → List Pins
  | [] => []
  | (n, l) :: ls =>
    List.replicate (n - now) (Pins.idle true) ++ l.cycles ++ schedule (now + (n - now) + l.cycles.length) ls

/-- The given line levels put on the given cycles, one each; cycles beyond the levels keep theirs. -/
def onLine : List Bool → List Pins → List Pins
  | v :: vs, p :: ps => { p with dqI := v } :: onLine vs ps
  | _, ps => ps

/-- The pseudo-instructions of R63. `waitDone n` is WAITDONE's loop of reads of STATUS taken `n` times: when to stop
is the host's decision, on `doneSeen`. -/
inductive Pseudo where
  | nop
  | init
  | acquire
  | clrDone
  | clrDrop
  | clrAll
  | waitDone (n : Nat)
  | irqOn
  | irqOff
deriving DecidableEq, Repr

/-- The expansions of R63. -/
def Pseudo.expand : Pseudo → List Asm
  | .nop => [.wr 0 0x0]
  | .init => [.wr 0 0x1]
  | .acquire => [.wr 0 0x2]
  | .clrDone => [.wr 2 0x2]
  | .clrDrop => [.wr 2 0x8]
  | .clrAll => [.wr 2 0xA]
  | .waitDone n => List.replicate n (.rd 2)
  | .irqOn => [.wr 1 0x1]
  | .irqOff => [.wr 1 0x0]

/-- What ends WAITDONE: bit 1 of the STATUS read (R63). -/
def doneSeen (status : Word) : Bool := status.getLsbD 1

/-- The samples of a wait for `level` that first sees it at tick `j` (R63): the opposite level at ticks `1 .. j-1`. -/
def seenAt (level : Bool) (j : Nat) : List Bool := List.replicate (j - 1) (!level) ++ [level]

/-- The samples of a wait for `level` that never sees it within `timeout` ticks (`never`, R63). -/
def neverSeen (level : Bool) (timeout : Nat) : List Bool := List.replicate timeout (!level)

/-- The samples of one data bit: a low of `l` ticks and a high of `h` ticks (R93, R94). -/
def bitSamples (l h : Nat) : List Bool := seenAt true l ++ seenAt false h

/-- The samples of the data phase, from the durations of its bits (R93 to R98). -/
def frameSamples (ds : List (Nat × Nat)) : List Bool := ds.flatMap fun d => bitSamples d.1 d.2

/-- The frame that the bits of the given durations make, the first received first (R95, R96). -/
def frameOf (ds : List (Nat × Nat)) : Frame := ds.foldl (fun f d => shiftIn f (bitval d.2 d.1)) 0

/-- The humidity the host reads from DATA (R109): `hum / 10`, exact. -/
def hostHumidity (s : State) : Rat := (s.blk.hum.toNat : Rat) / 10

/-- The temperature the host reads from DATA, under its convention `TEMP_SIGN_CONVENTION` (R110), exact. R109's
`temp / 10` is this at `TempSignConvention.unsigned`; which convention a sensor has is open. -/
def hostTemperature (conv : TempSignConvention) (s : State) : Rat := conv s.blk.temp / 10

end Sys2Proof.Machine
end

