-- ==== Sys2Proof/Safety.lean ====
section
/-! DEFINITION. What a safe state and a safe run are, in the terms the statements use: the invariant of the block,
runs of cycles, inputs without a reset, and the bound on what is left of an operation. -/

namespace Sys2Proof

/-- The budget of a phase in ticks (R5, R142): the exact length of POWERUP and START, the timeout of a wait. -/
def Params.ticksOf (p : Params) : Phase → Nat
  | .idle => 0
  | .powerup => p.powerupUs
  | .start => p.startLowUs
  | .waitAckLo => p.toAckLoUs
  | .waitAckHi => p.toAckHiUs
  | .waitDataLo => p.toDataLoUs
  | .waitBitHi => p.toBitHiUs
  | .waitBitLo => p.toBitLoUs

/-- The largest number of ticks of one data bit. -/
def Params.bitBudget (p : Params) : Nat := p.toBitHiUs + p.toBitLoUs

/-- The bound `B` of R128, for an operation with a power-up wait (`init`) or without one. -/
def Params.bound (p : Params) (init : Bool) : Nat :=
  (if init then p.powerupUs else 0) + p.startLowUs + p.toAckLoUs + p.toAckHiUs + p.toDataLoUs + 40 * p.bitBudget

end Sys2Proof

namespace Sys2Proof.Machine

/-- Whether a phase belongs to the data phase (R93, R94). -/
def inBit : Phase → Bool
  | .waitBitHi => true
  | .waitBitLo => true
  | _ => false

/-- What holds of the block in every state a run from reset reaches. -/
structure Block.Inv (p : Params) (b : Block) : Prop where
  /-- the prescaler stays below `CYCLES_PER_US` (R15, R33) -/
  presc_lt : b.presc < p.cyclesPerUs
  /-- and is 0 while idle (R33, R89) -/
  idle_presc : b.phase = .idle → b.presc = 0
  /-- the tick counter is 0 while idle (R106) -/
  idle_cnt : b.phase = .idle → b.cnt = 0
  /-- and below the phase's budget while busy (R29, R100) -/
  cnt_lt : b.phase ≠ .idle → b.cnt < p.ticksOf b.phase
  /-- only START drives the line (R35) -/
  dqOe_start : b.dqOe = true ↔ b.phase = .start
  /-- `low_dur` is a duration of WAIT_BIT_HI or 0 (R30, R100) -/
  lowDur_le : b.lowDur ≤ p.toBitHiUs
  /-- and at least 1 when it is to be compared (R93) -/
  lowDur_pos : b.phase = .waitBitLo → 1 ≤ b.lowDur
  /-- at most 40 bits (R31) -/
  bitidx_le : b.bitidx ≤ 40
  /-- 40 only in IDLE (R31) -/
  bitidx_busy : b.phase ≠ .idle → b.bitidx < 40
  /-- no bit before the data phase (R31) -/
  bitidx_before : b.phase ≠ .idle → inBit b.phase = false → b.bitidx = 0
  /-- `bitidx` bits have been shifted into a cleared register (R96) -/
  sr_lt : b.sr.toNat < 2 ^ b.bitidx
  /-- POWERUP is entered only from INIT (R81) -/
  powerup_init : b.phase = .powerup → b.isInit = true
  /-- DONE is 0 while an operation runs (R79, R106) -/
  busy_done : b.phase ≠ .idle → b.done = false
  /-- result codes 6 and 7 are never produced (R58, U5) -/
  result_le : b.result.toNat ≤ 5
  /-- DATA is 0 after reset and after every failed acquisition or NOT_READY (R26, R107) -/
  failed_data : b.result = 0 ∨ b.result = 2 ∨ b.result = 3 ∨ b.result = 4 → b.hum = 0 ∧ b.temp = 0
  /-- READY is set only by an operation that finished (R21) -/
  ready_result : b.ready = true → b.result ≠ 0

/-- A machine whose configuration meets R6 and whose block meets the invariant. -/
structure State.Safe (s : State) : Prop where
  cfg : s.cfg.wf = true
  blk : s.blk.Inv s.cfg

/-- `k` cycles. -/
def run : Nat → State → Answer
  | 0, s => .next s
  | k + 1, s => andThen (step s) (run k)

/-- The inputs of the next `n` cycles are listed, and none of them resets. -/
def State.NoReset (s : State) (n : Nat) : Prop := n ≤ s.inputs.length ∧ ∀ p ∈ s.inputs.take n, p.rst = false

/-- The most ticks that an operation in this state can still take until its `finish` (R142). -/
def Block.ticksLeft (p : Params) (b : Block) : Nat :=
  match b.phase with
  | .idle => 0
  | .powerup => (p.powerupUs - b.cnt) + p.startLowUs + p.toAckLoUs + p.toAckHiUs + p.toDataLoUs + 40 * p.bitBudget
  | .start => (p.startLowUs - b.cnt) + p.toAckLoUs + p.toAckHiUs + p.toDataLoUs + 40 * p.bitBudget
  | .waitAckLo => (p.toAckLoUs - b.cnt) + p.toAckHiUs + p.toDataLoUs + 40 * p.bitBudget
  | .waitAckHi => (p.toAckHiUs - b.cnt) + p.toDataLoUs + 40 * p.bitBudget
  | .waitDataLo => (p.toDataLoUs - b.cnt) + 40 * p.bitBudget
  | .waitBitHi => (p.toBitHiUs - b.cnt) + p.toBitLoUs + (39 - b.bitidx) * p.bitBudget
  | .waitBitLo => (p.toBitLoUs - b.cnt) + (39 - b.bitidx) * p.bitBudget

/-- The same in cycles. -/
def Block.cyclesLeft (p : Params) (b : Block) : Nat := b.ticksLeft p * p.cyclesPerUs - b.presc

/-- The transaction of a cycle starts an acquisition in this block state: INIT, or ACQUIRE with READY, while idle
(R74, R76, R77). -/
def Block.accepts (b : Block) : Instr → Bool
  | .cmdInit _ => !b.busy
  | .cmdAcquire _ => !b.busy && b.ready
  | _ => false

/-- A command that is not NOP (R74). -/
def isCommand : Instr → Bool
  | .cmdInit _ => true
  | .cmdAcquire _ => true
  | .cmdRsvd _ => true
  | _ => false

/-- A host transaction that clears DONE by W1C (R56). -/
def w1cDone : Instr → Bool
  | .wrStatus d => d.getLsbD 1
  | _ => false

/-- A host transaction that clears DROP by W1C (R56). -/
def w1cDrop : Instr → Bool
  | .wrStatus d => d.getLsbD 3
  | _ => false

/-- The level that a wait phase awaits (R84 to R86, R93, R94); none for the other phases. -/
def awaited : Phase → Option Bool
  | .waitAckLo => some false
  | .waitAckHi => some true
  | .waitDataLo => some false
  | .waitBitHi => some true
  | .waitBitLo => some false
  | _ => none

/-- The phases a cycle without a reset may lead to (R17, R88). -/
def successors : Phase → List Phase
  | .idle => [.idle, .powerup, .start]
  | .powerup => [.powerup, .start]
  | .start => [.start, .waitAckLo]
  | .waitAckLo => [.waitAckLo, .waitAckHi, .idle]
  | .waitAckHi => [.waitAckHi, .waitDataLo, .idle]
  | .waitDataLo => [.waitDataLo, .waitBitHi, .idle]
  | .waitBitHi => [.waitBitHi, .waitBitLo, .idle]
  | .waitBitLo => [.waitBitLo, .waitBitHi, .idle]

/-- The registers that a timeout leaves (R87, R106, R107, R108). -/
def Block.timedOut (b : Block) : Block :=
  { b with phase := .idle, dqOe := false, cnt := 0, done := true, result := 2, hum := 0, temp := 0,
           ready := if b.isInit then false else b.ready }

/-- The registers that the end of a frame leaves (R102 to R108): `f` with all its bits in, OK or CHECKSUM. -/
def Block.received (f : Frame) (b : Block) : Block :=
  if sum8 f = frameByte f 4 then
    { b with phase := .idle, dqOe := false, cnt := 0, done := true, result := 1, sr := f, bitidx := 40,
             hum := f.extractLsb' 24 16, temp := f.extractLsb' 8 16, ready := if b.isInit then true else b.ready }
  else
    { b with phase := .idle, dqOe := false, cnt := 0, done := true, result := 3, sr := f, bitidx := 40,
             hum := 0, temp := 0, ready := if b.isInit then false else b.ready }

/-- Two block states that a host cannot tell the sequencer's part of apart: equal but for `ie`, `done` and `drop`. -/
def SameSequencer (b c : Block) : Prop := c = { b with ie := c.ie, done := c.done, drop := c.drop }

/-- What the line and the reset pin do in a cycle, without the host port. -/
def lineOf (p : Pins) : Bool × Bool := (p.rst, p.dqI)

/-- 40 pairs of durations within the timeouts of the two bit phases (R93, R94, R100). -/
def DurationsFit (c : Params) (ds : List (Nat × Nat)) : Prop :=
  ds.length = 40 ∧ ∀ d ∈ ds, (1 ≤ d.1 ∧ d.1 ≤ c.toBitHiUs) ∧ (1 ≤ d.2 ∧ d.2 ≤ c.toBitLoUs)

end Sys2Proof.Machine
end

