-- ==== Sys2Proof/Certificates/Slice0/Obligations.lean ====
section
/-! DEFINITION. The statements for the provers. Each docstring names the rule of spec/ that the statement formalises,
or says that it is derived or rests on a choice of the model. A cycle's inputs are the head of `State.inputs` (the
model's form, log entry 2), its outputs stand in `State.out` (the model's form, log entry 5); `step` answers a next state
for every sound configuration, so statements about a cycle say `∃ t, step s = .next t ∧ …`. -/

open Sys2Proof Sys2Proof.Machine

/-! ## Encoding -/

/-- R53, R54, R57, R59 (derived): decoding the encoding of a well-formed instruction gives it back, every operand bit
included; that the don't-care bits are operands too is the model's choice (log entry 7). -/
def Obligations.DecodeOfEncodeIsTheInstruction : Prop := ∀ i : Instr, i.wf = true → decode (encode i) = i

/-- R53, R57, R61 (derived): what is decoded is well formed, and encoding it gives the word back. The last is the model's
choice (log entry 7, DESIGN CHOICE): the bits that R53 and R54 call don't-care are operands of `Instr`, so two words have
two terms of `Instr`; in the spec many words belong to one row and do the same. -/
def Obligations.EncodeOfDecodeIsTheWord : Prop := ∀ e : Slot, (decode e).wf = true ∧ encode (decode e) = e

/-- R57: the opcode map, over every `bus_sel` and every word, with the bits of `T` as R53 places them; and every word is
accepted by exactly one row of opcode_table.json, the row of the instruction it decodes to. -/
def Obligations.OpcodeMapDecodesEveryWordToOneRow : Prop :=
  (∀ p : Pins, (p.busSel = false → decode p.slot = .busIdle) ∧
    (p.busSel = true → decode p.slot = decode (.bus (BitVec.ofBool p.busWe ++ p.busAddr ++ p.busWdata)))) ∧
  (∀ t : Txn, t.getLsbD 35 = false →
    (t.extractLsb' 32 3 = 0 → decode (.bus t) = .rdCmd (t.extractLsb' 0 32)) ∧
    (t.extractLsb' 32 3 = 1 → decode (.bus t) = .rdCtrl (t.extractLsb' 0 32)) ∧
    (t.extractLsb' 32 3 = 2 → decode (.bus t) = .rdStatus (t.extractLsb' 0 32)) ∧
    (t.extractLsb' 32 3 = 3 → decode (.bus t) = .rdData (t.extractLsb' 0 32)) ∧
    (4 ≤ (t.extractLsb' 32 3).toNat → decode (.bus t) = .rdRsvd (t.extractLsb' 32 3) (t.extractLsb' 0 32))) ∧
  (∀ t : Txn, t.getLsbD 35 = true →
    (t.extractLsb' 32 3 = 0 → t.extractLsb' 0 2 = 0 → decode (.bus t) = .cmdNop (t.extractLsb' 2 30)) ∧
    (t.extractLsb' 32 3 = 0 → t.extractLsb' 0 2 = 1 → decode (.bus t) = .cmdInit (t.extractLsb' 2 30)) ∧
    (t.extractLsb' 32 3 = 0 → t.extractLsb' 0 2 = 2 → decode (.bus t) = .cmdAcquire (t.extractLsb' 2 30)) ∧
    (t.extractLsb' 32 3 = 0 → t.extractLsb' 0 2 = 3 → decode (.bus t) = .cmdRsvd (t.extractLsb' 2 30)) ∧
    (t.extractLsb' 32 3 = 1 → decode (.bus t) = .wrCtrl (t.extractLsb' 0 32)) ∧
    (t.extractLsb' 32 3 = 2 → decode (.bus t) = .wrStatus (t.extractLsb' 0 32)) ∧
    (t.extractLsb' 32 3 = 3 → decode (.bus t) = .wrData (t.extractLsb' 0 32)) ∧
    (4 ≤ (t.extractLsb' 32 3).toNat → decode (.bus t) = .wrRsvd (t.extractLsb' 32 3) (t.extractLsb' 0 32))) ∧
  (∀ (e : Slot) (k : Nat), k < 22 →
    ((opcodeTable.getD k .noWord).accepts e = true ↔ k = (decode e).rowIndex))

/-- R59: the eight phase codes, all of them used, and the operation each stands for; a read cannot tell two busy phases
apart. -/
def Obligations.PhaseCodesAreTheEightOfTheTable : Prop :=
  Phase.idle.code = 0 ∧ Phase.powerup.code = 1 ∧ Phase.start.code = 2 ∧ Phase.waitAckLo.code = 3 ∧
  Phase.waitAckHi.code = 4 ∧ Phase.waitDataLo.code = 5 ∧ Phase.waitBitHi.code = 6 ∧ Phase.waitBitLo.code = 7 ∧
  (∀ c : BitVec 3, ∃ q : Phase, q.code = c ∧ decode (.phase c) = q.op) ∧
  (∀ (b : Block) (q : Phase) (a : BitVec 3), b.phase ≠ .idle → q ≠ .idle →
    ({ b with phase := q } : Block).regRead a = b.regRead a)

/-- 95_test_vectors.md 2.1 and 2.2, R53, R57, R59 (derived): eleven transaction words the spec writes out and one phase
code, and what they are. The widths 40 and 8 given to `decodeTableWord` are the model's choice (log entry 11): they tell a
transaction word from a phase code. -/
def Obligations.WordsOfTheSpecDecode : Prop :=
  decodeTableWord 40 0x000000000 = some (.rdCmd 0) ∧ decodeTableWord 40 0x100000000 = some (.rdCtrl 0) ∧
  decodeTableWord 40 0x200000000 = some (.rdStatus 0) ∧ decodeTableWord 40 0x300000000 = some (.rdData 0) ∧
  decodeTableWord 40 0x700000000 = some (.rdRsvd 7 0) ∧ decodeTableWord 40 0x800000001 = some (.cmdInit 0) ∧
  decodeTableWord 40 0x800000002 = some (.cmdAcquire 0) ∧ decodeTableWord 40 0x9FFFFFFFF = some (.wrCtrl 0xFFFFFFFF) ∧
  decodeTableWord 40 0xA0000000A = some (.wrStatus 0xA) ∧ decodeTableWord 40 0xB12345678 = some (.wrData 0x12345678) ∧
  decodeTableWord 40 0xFFFFFFFFF = some (.wrRsvd 7 0xFFFFFFFF) ∧ decodeTableWord 8 7 = some .phaseWaitBitLo

/-! ## The cycle -/

/-- R64, R88, R89, R33, R34, R35, R37, R39 (derived): a cycle without reset runs the decoded host transaction with the
outputs driven from `S_n`, and: idle, the idle phase's operation; busy between ticks, the prescaler's count; busy at a
tick, the operation of the phase, whose prescaler wraps; and the synchroniser takes `dq_i`. R64 has both parts read `S_n`
and merges them; running the sequencer's part on the state that the host's part left is the model's way to the same
result (log entry 6), PHASE_IDLE as what every idle cycle runs is log entry 9, and the equations also fix the model's own
fields `inputs` and `cycle` (log entry 2) and `out` (log entry 5). -/
def Obligations.StepRunsTheDecodedInstruction : Prop :=
  ∀ (s : State) (p : Pins) (rest : List Pins) (t : State),
    s.cfg.wf = true → s.inputs = p :: rest → p.rst = false →
    exec (decode p.slot)
      { s with inputs := rest, cycle := s.cycle + 1,
               out := { busRdata := 0, irq := s.blk.ie && s.blk.done, dqOePin := s.blk.dqOe } } = .next t →
    (s.blk.phase = .idle → ∀ u, exec .phaseIdle t = .next u →
      step s = .next { u with blk := { u.blk with sync1 := p.dqI, sync2 := s.blk.sync1 } }) ∧
    (s.blk.phase ≠ .idle → s.blk.presc ≠ s.cfg.cyclesPerUs - 1 →
      step s = .next { t with blk := { t.blk with presc := (s.blk.presc + 1) % s.cfg.cyclesPerUs,
                                                  sync1 := p.dqI, sync2 := s.blk.sync1 } }) ∧
    (s.blk.phase ≠ .idle → s.blk.presc = s.cfg.cyclesPerUs - 1 → ∀ u, exec s.blk.phase.op t = .next u →
      step s = .next { u with blk := { u.blk with presc := 0, sync1 := p.dqI, sync2 := s.blk.sync1 } })

/-- R6, R7 (derived): a step is a total function on every machine whose configuration meets R6, and keeps the
configuration. That one listed input is used is the model's choice (log entry 2, DESIGN CHOICE); that `step` answers the
refusal `invalidConfig` for a configuration that breaks R6 is the model's form of "a model must not build it" (log entry
3, DEDUCED). -/
def Obligations.StepIsTotalExactlyOnSoundConfigurations : Prop :=
  ∀ s : State,
    ((1 ≤ s.cfg.cyclesPerUs ∧ 1 ≤ s.cfg.startLowUs ∧ 1 ≤ s.cfg.toAckLoUs ∧ 1 ≤ s.cfg.toAckHiUs ∧
        1 ≤ s.cfg.toDataLoUs ∧ 1 ≤ s.cfg.toBitHiUs ∧ 1 ≤ s.cfg.toBitLoUs) →
      ∃ t, step s = .next t ∧ t.cfg = s.cfg ∧ t.inputs = s.inputs.tail) ∧
    (¬ (1 ≤ s.cfg.cyclesPerUs ∧ 1 ≤ s.cfg.startLowUs ∧ 1 ≤ s.cfg.toAckLoUs ∧ 1 ≤ s.cfg.toAckHiUs ∧
        1 ≤ s.cfg.toDataLoUs ∧ 1 ≤ s.cfg.toBitHiUs ∧ 1 ≤ s.cfg.toBitLoUs) →
      step s = .refused .invalidConfig)

/-! ## Reads and writes -/

/-- R65 to R69 (derived): each read answers its register's word and changes nothing else. -/
def Obligations.ReadsAnswerTheirRegisterAndChangeNothing : Prop :=
  ∀ (s : State) (dc : Word) (a : BitVec 3),
    exec (.rdCmd dc) s = .next { s with out := { s.out with busRdata := 0 } } ∧
    exec (.rdCtrl dc) s = .next { s with out := { s.out with busRdata := if s.blk.ie then 1 else 0 } } ∧
    exec (.rdStatus dc) s = .next { s with
      out := { s.out with
        busRdata := 0#25 ++ s.blk.result ++ BitVec.ofBool s.blk.drop ++ BitVec.ofBool s.blk.ready ++
          BitVec.ofBool s.blk.done ++ BitVec.ofBool (decide (s.blk.phase ≠ .idle)) } } ∧
    exec (.rdData dc) s = .next { s with out := { s.out with busRdata := s.blk.hum ++ s.blk.temp } } ∧
    exec (.rdRsvd a dc) s = .next { s with out := { s.out with busRdata := 0 } }

/-- R49: `bus_rdata` in every cycle, a reset cycle too (R129): `RegRead(S_n, bus_addr)` on a read, else 0 (R39). -/
def Obligations.BusRdataIsRegReadOfTheOldState : Prop :=
  ∀ (s : State) (p : Pins) (rest : List Pins), s.cfg.wf = true → s.inputs = p :: rest →
    ∃ t, step s = .next t ∧ t.out.busRdata =
      if p.busSel = true ∧ p.busWe = false then
        if p.busAddr = 1 then (if s.blk.ie then 1 else 0)
        else if p.busAddr = 2 then
          0#25 ++ s.blk.result ++ BitVec.ofBool s.blk.drop ++ BitVec.ofBool s.blk.ready ++
            BitVec.ofBool s.blk.done ++ BitVec.ofBool (decide (s.blk.phase ≠ .idle))
        else if p.busAddr = 3 then s.blk.hum ++ s.blk.temp
        else 0
      else 0

/-- R25: the bits of STATUS as a read shows them, and which bits of a write to it are ignored. -/
def Obligations.StatusBitsStandWhereTheLayoutPutsThem : Prop :=
  (∀ (s : State) (dc : Word), ∃ t, exec (.rdStatus dc) s = .next t ∧ t.blk = s.blk ∧
    t.out.busRdata.getLsbD 0 = decide (s.blk.phase ≠ .idle) ∧ t.out.busRdata.getLsbD 1 = s.blk.done ∧
    t.out.busRdata.getLsbD 2 = s.blk.ready ∧ t.out.busRdata.getLsbD 3 = s.blk.drop ∧
    t.out.busRdata.extractLsb' 4 3 = s.blk.result ∧ ∀ i, 7 ≤ i → t.out.busRdata.getLsbD i = false) ∧
  (∀ (s : State) (d e : Word), d.getLsbD 1 = e.getLsbD 1 → d.getLsbD 3 = e.getLsbD 3 →
    exec (.wrStatus d) s = exec (.wrStatus e) s)

/-- R55: WR_CTRL writes IE from bit 0 of its data, and nothing else. -/
def Obligations.WrCtrlWritesIeOnly : Prop :=
  ∀ (s : State) (d : Word), exec (.wrCtrl d) s = .next { s with blk := { s.blk with ie := d.getLsbD 0 } }

/-- R56: WR_STATUS clears DONE and DROP, each where its bit is 1, and nothing else. -/
def Obligations.WrStatusClearsDoneAndDropByTheirBits : Prop :=
  ∀ (s : State) (d : Word), exec (.wrStatus d) s =
    .next { s with blk := { s.blk with done := if d.getLsbD 1 then false else s.blk.done,
                                       drop := if d.getLsbD 3 then false else s.blk.drop } }

/-- R42: the reserved words, word index 4 to 7, read 0, and a write to one changes no state and sets no flag. -/
def Obligations.ReservedWordsReadZeroAndIgnoreWrites : Prop :=
  (∀ (s : State) (a : BitVec 3) (d : Word),
    exec (.rdRsvd a d) s = .next { s with out := { s.out with busRdata := 0 } } ∧ exec (.wrRsvd a d) s = .next s) ∧
  (∀ (s : State) (p : Pins), p.busSel = true → 4 ≤ p.busAddr.toNat →
    exec (decode p.slot) s = .next (if p.busWe then s else { s with out := { s.out with busRdata := 0 } }))

/-- R72, R75, R80 (derived): WR_DATA, CMD_NOP and a bus-idle cycle change nothing, busy or not. -/
def Obligations.DataWriteNopAndIdleBusChangeNothing : Prop :=
  ∀ (s : State) (d : Word) (c : BitVec 30),
    exec (.wrData d) s = .next s ∧ exec (.cmdNop c) s = .next s ∧ exec .busIdle s = .next s

/-! ## Commands -/

/-- R74 (derived): while busy, INIT, ACQUIRE and the reserved command set DROP and do nothing else. -/
def Obligations.CommandWhileBusyOnlySetsDrop : Prop :=
  ∀ (s : State) (c : BitVec 30), s.blk.phase ≠ .idle →
    exec (.cmdInit c) s = .next { s with blk := { s.blk with drop := true } } ∧
    exec (.cmdAcquire c) s = .next { s with blk := { s.blk with drop := true } } ∧
    exec (.cmdRsvd c) s = .next { s with blk := { s.blk with drop := true } }

/-- R79: what the acceptance of INIT, and of ACQUIRE with READY, writes; `result`, `hum`, `temp`, `ready`, `drop` and
`ie` keep their values. -/
def Obligations.AcceptedCommandStartsAnAcquisition : Prop :=
  ∀ (s : State) (c : BitVec 30), s.blk.phase = .idle →
    (0 < s.cfg.powerupUs → exec (.cmdInit c) s = .next { s with blk := { s.blk with
      done := false, isInit := true, sr := 0, bitidx := 0, cnt := 0, lowDur := 0, presc := 0,
      phase := .powerup, dqOe := false } }) ∧
    (s.cfg.powerupUs = 0 → exec (.cmdInit c) s = .next { s with blk := { s.blk with
      done := false, isInit := true, sr := 0, bitidx := 0, cnt := 0, lowDur := 0, presc := 0,
      phase := .start, dqOe := true } }) ∧
    (s.blk.ready = true → exec (.cmdAcquire c) s = .next { s with blk := { s.blk with
      done := false, isInit := false, sr := 0, bitidx := 0, cnt := 0, lowDur := 0, presc := 0,
      phase := .start, dqOe := true } })

/-- R77, R106 (derived): ACQUIRE while idle with READY = 0 finishes with NOT_READY in its own cycle. -/
def Obligations.AcquireWithoutReadyFinishesNotReady : Prop :=
  ∀ (s : State) (c : BitVec 30), s.blk.phase = .idle → s.blk.ready = false →
    exec (.cmdAcquire c) s = .next { s with blk := { s.blk with
      phase := .idle, dqOe := false, cnt := 0, done := true, result := 4, hum := 0, temp := 0 } }

/-- R78, R106 (derived): the reserved command while idle finishes with INVALID_ARG; DATA and READY stay. -/
def Obligations.ReservedCommandFinishesInvalidArg : Prop :=
  ∀ (s : State) (c : BitVec 30), s.blk.phase = .idle →
    exec (.cmdRsvd c) s = .next { s with blk := { s.blk with
      phase := .idle, dqOe := false, cnt := 0, done := true, result := 5 } }

/-- R105, R106, R107, R108 (derived): what `finish` writes: for every result IDLE, `dq_oe`, `cnt` and DONE, and DATA and
READY; RESULT is stated for OK only. `sr`, `bitidx`, `low_dur`, `is_init`, `presc`, `ie` and `drop` stay. -/
def Obligations.FinishCommitsTheResult : Prop :=
  ∀ (res : Result) (f : Frame) (b : Block),
    ((b.finish res f).phase = .idle ∧ (b.finish res f).dqOe = false ∧ (b.finish res f).cnt = 0 ∧
      (b.finish res f).done = true) ∧
    (res = .ok → (b.finish res f).result = 1 ∧ (b.finish res f).hum = f.extractLsb' 24 16 ∧
      (b.finish res f).temp = f.extractLsb' 8 16) ∧
    (res = .timeout ∨ res = .checksum ∨ res = .notReady → (b.finish res f).hum = 0 ∧ (b.finish res f).temp = 0) ∧
    (res = .invalidArg → (b.finish res f).hum = b.hum ∧ (b.finish res f).temp = b.temp) ∧
    (b.isInit = true → res = .ok → (b.finish res f).ready = true) ∧
    (b.isInit = true → res = .timeout ∨ res = .checksum → (b.finish res f).ready = false) ∧
    (b.isInit = false ∨ res = .notReady ∨ res = .invalidArg → (b.finish res f).ready = b.ready) ∧
    ((b.finish res f).sr = b.sr ∧ (b.finish res f).bitidx = b.bitidx ∧ (b.finish res f).lowDur = b.lowDur ∧
      (b.finish res f).isInit = b.isInit ∧ (b.finish res f).presc = b.presc ∧ (b.finish res f).ie = b.ie ∧
      (b.finish res f).drop = b.drop)

/-! ## The phases, tick by tick -/

/-- R89 (derived): the idle phase's operation clears the prescaler and nothing else. -/
def Obligations.IdleOperationClearsThePrescalerOnly : Prop :=
  ∀ s : State, exec .phaseIdle s = .next { s with blk := { s.blk with presc := 0 } }

/-- R81, R82 (derived): a tick of POWERUP and of START counts, and at the phase's last tick goes on. -/
def Obligations.PowerupAndStartCountTheirTicks : Prop :=
  ∀ s : State,
    (s.blk.cnt + 1 = s.cfg.powerupUs →
      exec .phasePowerup s = .next { s with blk := { s.blk with phase := .start, cnt := 0, dqOe := true } }) ∧
    (s.blk.cnt + 1 ≠ s.cfg.powerupUs →
      exec .phasePowerup s = .next { s with blk := { s.blk with cnt := s.blk.cnt + 1 } }) ∧
    (s.blk.cnt + 1 = s.cfg.startLowUs →
      exec .phaseStart s = .next { s with blk := { s.blk with phase := .waitAckLo, cnt := 0, dqOe := false } }) ∧
    (s.blk.cnt + 1 ≠ s.cfg.startLowUs →
      exec .phaseStart s = .next { s with blk := { s.blk with cnt := s.blk.cnt + 1 } })

/-- R84, R85, R86, R87 (derived): a tick of the three acknowledge waits: the level is there and the next phase begins;
or it is not and the budget is spent, a TIMEOUT; or one more tick is counted. -/
def Obligations.AcknowledgeWaitsSucceedCountOrTimeOut : Prop :=
  ∀ s : State,
    (s.blk.sync2 = false →
      exec .phaseWaitAckLo s = .next { s with blk := { s.blk with phase := .waitAckHi, cnt := 0 } }) ∧
    (s.blk.sync2 = true → s.cfg.toAckLoUs ≤ s.blk.cnt + 1 →
      exec .phaseWaitAckLo s = .next { s with blk := s.blk.timedOut }) ∧
    (s.blk.sync2 = true → s.blk.cnt + 1 < s.cfg.toAckLoUs →
      exec .phaseWaitAckLo s = .next { s with blk := { s.blk with cnt := s.blk.cnt + 1 } }) ∧
    (s.blk.sync2 = true →
      exec .phaseWaitAckHi s = .next { s with blk := { s.blk with phase := .waitDataLo, cnt := 0 } }) ∧
    (s.blk.sync2 = false → s.cfg.toAckHiUs ≤ s.blk.cnt + 1 →
      exec .phaseWaitAckHi s = .next { s with blk := s.blk.timedOut }) ∧
    (s.blk.sync2 = false → s.blk.cnt + 1 < s.cfg.toAckHiUs →
      exec .phaseWaitAckHi s = .next { s with blk := { s.blk with cnt := s.blk.cnt + 1 } }) ∧
    (s.blk.sync2 = false →
      exec .phaseWaitDataLo s = .next { s with blk := { s.blk with phase := .waitBitHi, cnt := 0, bitidx := 0 } }) ∧
    (s.blk.sync2 = true → s.cfg.toDataLoUs ≤ s.blk.cnt + 1 →
      exec .phaseWaitDataLo s = .next { s with blk := s.blk.timedOut }) ∧
    (s.blk.sync2 = true → s.blk.cnt + 1 < s.cfg.toDataLoUs →
      exec .phaseWaitDataLo s = .next { s with blk := { s.blk with cnt := s.blk.cnt + 1 } })

/-- R93, R99 (derived): a tick of WAIT_BIT_HI keeps the duration of the low, times out, or counts. -/
def Obligations.BitHighWaitMeasuresTheLow : Prop :=
  ∀ s : State,
    (s.blk.sync2 = true → exec .phaseWaitBitHi s =
      .next { s with blk := { s.blk with lowDur := s.blk.cnt + 1, phase := .waitBitLo, cnt := 0 } }) ∧
    (s.blk.sync2 = false → s.cfg.toBitHiUs ≤ s.blk.cnt + 1 →
      exec .phaseWaitBitHi s = .next { s with blk := s.blk.timedOut }) ∧
    (s.blk.sync2 = false → s.blk.cnt + 1 < s.cfg.toBitHiUs →
      exec .phaseWaitBitHi s = .next { s with blk := { s.blk with cnt := s.blk.cnt + 1 } })

/-- R94, R96, R99, R102 (derived): a tick of WAIT_BIT_LO decides the bit (1 iff the high was longer), shifts it in and
goes on to the next bit; with the 40th, ends the frame; times out; or counts. -/
def Obligations.BitLowWaitDecidesTheBit : Prop :=
  ∀ (s : State) (f : Frame), f = s.blk.sr.extractLsb' 0 39 ++ BitVec.ofBool (decide (s.blk.cnt + 1 > s.blk.lowDur)) →
    (s.blk.sync2 = false → s.blk.bitidx + 1 ≠ 40 → exec .phaseWaitBitLo s =
      .next { s with blk := { s.blk with sr := f, bitidx := s.blk.bitidx + 1, phase := .waitBitHi, cnt := 0 } }) ∧
    (s.blk.sync2 = false → s.blk.bitidx + 1 = 40 →
      exec .phaseWaitBitLo s = .next { s with blk := s.blk.received f }) ∧
    (s.blk.sync2 = true → s.cfg.toBitLoUs ≤ s.blk.cnt + 1 →
      exec .phaseWaitBitLo s = .next { s with blk := s.blk.timedOut }) ∧
    (s.blk.sync2 = true → s.blk.cnt + 1 < s.cfg.toBitLoUs →
      exec .phaseWaitBitLo s = .next { s with blk := { s.blk with cnt := s.blk.cnt + 1 } })

/-- R83: a wait that starts afresh, over its tick samples: while the awaited level is not seen its ticks are counted;
seen first at tick `j`, `j` at most the timeout, the wait succeeds at that tick with duration `j`; never seen, it
times out at its `T`-th tick. -/
def Obligations.WaitEndsAtTheFirstAwaitedSample : Prop :=
  ∀ (s : State) (q : Phase) (level : Bool),
    awaited q = some level → s.blk.phase = q → s.blk.cnt = 0 → 1 ≤ s.cfg.ticksOf q →
    (∀ m, m < s.cfg.ticksOf q → sampleTicks (List.replicate m (!level)) s =
      .next { s with blk := { s.blk with cnt := m, sync2 := if m = 0 then s.blk.sync2 else !level } }) ∧
    (∀ j, 1 ≤ j → j ≤ s.cfg.ticksOf q → ∃ t, sampleTicks (seenAt level j) s = .next t ∧ t.blk.cnt = 0 ∧
      (q = .waitAckLo → t.blk = { s.blk with sync2 := level, phase := .waitAckHi }) ∧
      (q = .waitAckHi → t.blk = { s.blk with sync2 := level, phase := .waitDataLo }) ∧
      (q = .waitDataLo → t.blk = { s.blk with sync2 := level, phase := .waitBitHi, bitidx := 0 }) ∧
      (q = .waitBitHi → t.blk = { s.blk with sync2 := level, phase := .waitBitLo, lowDur := j }) ∧
      (q = .waitBitLo → t.blk.sr = s.blk.sr.extractLsb' 0 39 ++ BitVec.ofBool (decide (j > s.blk.lowDur)) ∧
        t.blk.bitidx = s.blk.bitidx + 1)) ∧
    (∀ samples, sampleTicks (neverSeen level (s.cfg.ticksOf q) ++ samples) s =
      sampleTicks samples { s with blk := ({ s.blk with sync2 := !level } : Block).timedOut })

/-! ## Comparator, shift, checksum -/

/-- R95 (derived): the comparator is strict, decodes ties as 0, and depends on the order of its durations only. -/
def Obligations.ComparatorDependsOnOrderOnly : Prop :=
  (∀ h l : Nat, bitval h l = true ↔ h > l) ∧
  (∀ (f : Nat → Nat), (∀ x y, x < y → f x < f y) → ∀ h l, bitval (f h) (f l) = bitval h l) ∧
  bitval 2 1 = true ∧ bitval 63 64 = false

/-- R98: of 40 bits shifted in, the `i`-th ends at bit `39 - i`, which is bit `7 - i mod 8` of byte `i div 8`; and the
bytes are the humidity, the temperature and the checksum. -/
def Obligations.ReceivedBitsFillTheBytesInOrder : Prop :=
  ∀ (f0 : Frame) (bits : List Bool), bits.length = 40 →
    (∀ (i : Nat) (hi : i < bits.length),
      (bits.foldl shiftIn f0).getLsbD (39 - i) = bits[i] ∧
      (frameByte (bits.foldl shiftIn f0) (i / 8)).getLsbD (7 - i % 8) = bits[i]) ∧
    (∀ f : Frame, frameHum f = frameByte f 0 ++ frameByte f 1 ∧ frameTemp f = frameByte f 2 ++ frameByte f 3 ∧
      f = frameByte f 0 ++ frameByte f 1 ++ frameByte f 2 ++ frameByte f 3 ++ frameByte f 4)

/-- R103: the checksum is the exact sum of four unsigned bytes, at most 1020, mod 256. -/
def Obligations.ChecksumIsTheByteSumModTwoToTheEight : Prop :=
  (∀ f : Frame,
    (sum8 f).toNat = ((f.extractLsb' 32 8).toNat + (f.extractLsb' 24 8).toNat + (f.extractLsb' 16 8).toNat +
      (f.extractLsb' 8 8).toNat) % 256 ∧
    (f.extractLsb' 32 8).toNat + (f.extractLsb' 24 8).toNat + (f.extractLsb' 16 8).toNat +
      (f.extractLsb' 8 8).toNat ≤ 1020 ∧
    (frameValid f = true ↔ sum8 f = f.extractLsb' 0 8)) ∧
  sum8 0xFFFFFFFF00#40 = 0xFC

/-- R113: the all-zero frame passes; every single flipped bit is detected; two flips can cancel; the order of the data
bytes is not checked; the sum wraps. -/
def Obligations.ChecksumDetectsEverySingleBitFlip : Prop :=
  (∀ b : Block, (b.validate 0#40).result = 1 ∧ (b.validate 0#40).hum = 0 ∧ (b.validate 0#40).temp = 0) ∧
  (∀ (f : Frame) (i : Nat), i < 40 → frameValid f = true → frameValid (f ^^^ (1#40 <<< i)) = false) ∧
  (∀ (b2 b3 c : Byte),
    frameValid (0x80#8 ++ 0x00#8 ++ b2 ++ b3 ++ c) = frameValid (0x00#8 ++ 0x80#8 ++ b2 ++ b3 ++ c) ∧
    frameHum (0x80#8 ++ 0x00#8 ++ b2 ++ b3 ++ c) ≠ frameHum (0x00#8 ++ 0x80#8 ++ b2 ++ b3 ++ c)) ∧
  (∀ (b0 b1 b2 b3 c : Byte),
    frameValid (b1 ++ b0 ++ b2 ++ b3 ++ c) = frameValid (b0 ++ b1 ++ b2 ++ b3 ++ c) ∧
    frameValid (b2 ++ b1 ++ b0 ++ b3 ++ c) = frameValid (b0 ++ b1 ++ b2 ++ b3 ++ c) ∧
    frameValid (b3 ++ b1 ++ b2 ++ b0 ++ c) = frameValid (b0 ++ b1 ++ b2 ++ b3 ++ c) ∧
    frameValid (b0 ++ b2 ++ b1 ++ b3 ++ c) = frameValid (b0 ++ b1 ++ b2 ++ b3 ++ c) ∧
    frameValid (b0 ++ b3 ++ b2 ++ b1 ++ c) = frameValid (b0 ++ b1 ++ b2 ++ b3 ++ c) ∧
    frameValid (b0 ++ b1 ++ b3 ++ b2 ++ c) = frameValid (b0 ++ b1 ++ b2 ++ b3 ++ c)) ∧
  frameValid 0xFFFFFFFFFC#40 = true

/-- 95_test_vectors.md S1 (R102 to R107, derived): for every four bytes, the frame with the right fifth byte ends its
40th bit with OK and DATA the four bytes; with any other fifth byte, with CHECKSUM and DATA 0. -/
def Obligations.ChecksumRoundTripThroughTheFortiethBit : Prop :=
  ∀ (s : State) (b0 b1 b2 b3 c : Byte),
    s.blk.bitidx = 39 → s.blk.sync2 = false →
    shiftIn s.blk.sr (bitval (s.blk.cnt + 1) s.blk.lowDur) = b0 ++ b1 ++ b2 ++ b3 ++ c →
    ∃ t, exec .phaseWaitBitLo s = .next t ∧ t.blk.phase = .idle ∧ t.blk.done = true ∧
      (c.toNat = (b0.toNat + b1.toNat + b2.toNat + b3.toNat) % 256 →
        t.blk.result = 1 ∧ t.blk.hum ++ t.blk.temp = b0 ++ b1 ++ b2 ++ b3) ∧
      (c.toNat ≠ (b0.toNat + b1.toNat + b2.toNat + b3.toNat) % 256 →
        t.blk.result = 3 ∧ t.blk.hum ++ t.blk.temp = 0#32)

/-! ## Frames and acquisitions at the sampler -/

/-- 42_bit_reception.md, R93 to R98, R102 (derived): from bit 0's WAIT_BIT_HI, the samples of any 40 pairs of durations
within the timeouts end in the state R102 to R108 give for the frame of those 40 comparisons, with the line last
sampled low and with some `low_dur` (its value, the last pair's low by R93, is not stated here); nothing else
changes. -/
def Obligations.DataPhaseDecodesTheFrameOfItsDurations : Prop :=
  ∀ (s : State) (ds : List (Nat × Nat)),
    s.blk.phase = .waitBitHi → s.blk.cnt = 0 → s.blk.bitidx = 0 → s.blk.sr = 0 → DurationsFit s.cfg ds →
    ∃ l, sampleTicks (frameSamples ds) s =
      .next { s with blk := ({ s.blk with sync2 := false, lowDur := l } : Block).received (frameOf ds) }

/-- 41_start_handshake.md and 42_bit_reception.md, R82 to R86, R93 to R98, R102 to R108 (derived): a whole acquisition
from the start signal, whatever is sampled during it; the device's three acknowledge levels within their timeouts;
then 40 bits. The result and DATA are those of the frame, READY is written if the acquisition is an INIT's. -/
def Obligations.WholeAcquisitionDecodesTheFrame : Prop :=
  ∀ (s : State) (ignored : List Bool) (j1 j2 j3 : Nat) (ds : List (Nat × Nat)),
    s.blk.phase = .start → s.blk.cnt = 0 → s.blk.bitidx = 0 → s.blk.sr = 0 →
    ignored.length = s.cfg.startLowUs → 1 ≤ s.cfg.startLowUs →
    (1 ≤ j1 ∧ j1 ≤ s.cfg.toAckLoUs) → (1 ≤ j2 ∧ j2 ≤ s.cfg.toAckHiUs) → (1 ≤ j3 ∧ j3 ≤ s.cfg.toDataLoUs) →
    DurationsFit s.cfg ds →
    ∃ t, sampleTicks (ignored ++ seenAt false j1 ++ seenAt true j2 ++ seenAt false j3 ++ frameSamples ds) s = .next t ∧
      t.cfg = s.cfg ∧ t.blk.phase = .idle ∧ t.blk.dqOe = false ∧ t.blk.cnt = 0 ∧ t.blk.bitidx = 40 ∧
      t.blk.sr = frameOf ds ∧ t.blk.done = true ∧ t.blk.ie = s.blk.ie ∧ t.blk.drop = s.blk.drop ∧
      (t.blk.result, t.blk.hum, t.blk.temp) =
        (if sum8 (frameOf ds) = (frameOf ds).extractLsb' 0 8 then
          (1, (frameOf ds).extractLsb' 24 16, (frameOf ds).extractLsb' 8 16) else (3, 0, 0)) ∧
      t.blk.ready = (if s.blk.isInit then decide (sum8 (frameOf ds) = (frameOf ds).extractLsb' 0 8)
        else s.blk.ready)

/-- R36, R88 (derived): cycles refine ticks. From a busy state at the start of a tick period, with a quiet host and no
reset, `n` tick periods of cycles do what `n` ticks of the sampler do with the levels that `dq_s` has in the `n` tick
cycles, as long as the operation lasts: only those samples are read. -/
def Obligations.CyclesRefineSamplerTicks : Prop :=
  ∀ (s : State) (samples : List Bool),
    s.cfg.wf = true → s.blk.phase ≠ .idle → s.blk.presc = 0 →
    s.NoReset (samples.length * s.cfg.cyclesPerUs) →
    (∀ p ∈ s.inputs.take (samples.length * s.cfg.cyclesPerUs), p.busSel = false) →
    (∀ (k : Nat) (hk : k < samples.length),
      ∃ u, run (k * s.cfg.cyclesPerUs + (s.cfg.cyclesPerUs - 1)) s = .next u ∧ u.blk.sync2 = samples[k]) →
    (∀ k, k < samples.length → ∃ u, sampleTicks (samples.take k) s = .next u ∧ u.blk.phase ≠ .idle) →
    ∃ t u, run (samples.length * s.cfg.cyclesPerUs) s = .next t ∧ sampleTicks samples s = .next u ∧
      t.blk = { u.blk with presc := 0, sync1 := t.blk.sync1, sync2 := t.blk.sync2 }

/-! ## Rules of the whole machine, over every cycle -/

/-- R34: the synchroniser in every cycle; the delay of two cycles; the level a cycle takes in reaches nothing but the
first stage. -/
def Obligations.SynchroniserDelaysTheLineTwoCycles : Prop :=
  (∀ (s : State) (p : Pins) (rest : List Pins), s.cfg.wf = true → s.inputs = p :: rest →
    ∃ t, step s = .next t ∧ (p.rst = false → t.blk.sync1 = p.dqI ∧ t.blk.sync2 = s.blk.sync1) ∧
      (p.rst = true → t.blk.sync1 = true ∧ t.blk.sync2 = true)) ∧
  (∀ (s : State) (p q : Pins) (rest : List Pins), s.cfg.wf = true → s.inputs = p :: q :: rest → p.rst = false →
    q.rst = false → ∃ t, run 2 s = .next t ∧ t.blk.sync2 = p.dqI) ∧
  (∀ (s : State) (p : Pins) (rest : List Pins) (v : Bool), s.cfg.wf = true →
    ∃ t u, step { s with inputs := p :: rest } = .next t ∧
      step { s with inputs := { p with dqI := v } :: rest } = .next u ∧
      u.blk = { t.blk with sync1 := u.blk.sync1 } ∧ u.out = t.out)

/-- R33: the prescaler in every cycle. -/
def Obligations.PrescalerCountsOnlyWhileBusy : Prop :=
  ∀ (s : State) (p : Pins) (rest : List Pins), s.cfg.wf = true → s.inputs = p :: rest →
    ∃ t, step s = .next t ∧ t.blk.presc =
      if p.rst = false ∧ s.blk.phase ≠ .idle then (s.blk.presc + 1) % s.cfg.cyclesPerUs else 0

/-- R36, R88 (derived): in a busy cycle that is no tick the sequencer changes the prescaler and the synchroniser
only; `ie`, `done` and `drop` are the host's. -/
def Obligations.BetweenTicksTheSequencerWaits : Prop :=
  ∀ (s : State) (p : Pins) (rest : List Pins), s.cfg.wf = true → s.inputs = p :: rest → p.rst = false →
    s.blk.phase ≠ .idle → s.blk.presc ≠ s.cfg.cyclesPerUs - 1 →
    ∃ t, step s = .next t ∧ SameSequencer
      { s.blk with presc := (s.blk.presc + 1) % s.cfg.cyclesPerUs, sync1 := p.dqI, sync2 := s.blk.sync1 } t.blk

/-- R22: DONE over every cycle: reset clears it; a finish sets it, against a W1C of the same cycle too; accepting INIT
or a started ACQUIRE clears it; NOT_READY and INVALID_ARG set it; otherwise only its W1C changes it. -/
def Obligations.DoneIsSetByFinishAndClearedByHost : Prop :=
  ∀ (s : State) (p : Pins) (rest : List Pins), s.cfg.wf = true → s.inputs = p :: rest →
    ∃ t, step s = .next t ∧
      (p.rst = true → t.blk.done = false) ∧
      (p.rst = false → s.blk.phase ≠ .idle → t.blk.phase = .idle → t.blk.done = true) ∧
      (p.rst = false → s.blk.phase ≠ .idle → t.blk.phase ≠ .idle →
        t.blk.done = (s.blk.done && !w1cDone (decode p.slot))) ∧
      (p.rst = false → s.blk.phase = .idle → s.blk.accepts (decode p.slot) = true → t.blk.done = false) ∧
      (p.rst = false → s.blk.phase = .idle → isCommand (decode p.slot) = true →
        s.blk.accepts (decode p.slot) = false → t.blk.done = true) ∧
      (p.rst = false → s.blk.phase = .idle → isCommand (decode p.slot) = false →
        t.blk.done = (s.blk.done && !w1cDone (decode p.slot)))

/-- R21: READY over every cycle: reset clears it; the finish of an INIT's acquisition writes it, 1 exactly with OK;
nothing else writes it; and ACQUIRE without it finishes with NOT_READY. -/
def Obligations.ReadyIsWrittenOnlyByTheFinishOfAnInit : Prop :=
  ∀ (s : State) (p : Pins) (rest : List Pins), s.cfg.wf = true → s.inputs = p :: rest →
    ∃ t, step s = .next t ∧
      (p.rst = true → t.blk.ready = false) ∧
      (p.rst = false → s.blk.phase ≠ .idle → t.blk.phase = .idle → s.blk.isInit = true →
        t.blk.ready = decide (t.blk.result = 1)) ∧
      (p.rst = false → s.blk.phase = .idle ∨ t.blk.phase ≠ .idle ∨ s.blk.isInit = false →
        t.blk.ready = s.blk.ready) ∧
      (∀ c, p.rst = false → s.blk.phase = .idle → s.blk.ready = false → decode p.slot = .cmdAcquire c →
        t.blk.result = 4 ∧ t.blk.done = true ∧ t.blk.phase = .idle)

/-- R24: RESULT over every cycle: only a finish writes it, with one of the codes of R58; accepting a command keeps
it. -/
def Obligations.ResultIsWrittenOnlyByFinish : Prop :=
  ∀ (s : State) (p : Pins) (rest : List Pins), s.cfg.wf = true → s.inputs = p :: rest →
    ∃ t, step s = .next t ∧
      (p.rst = true → t.blk.result = 0) ∧
      (p.rst = false → s.blk.phase ≠ .idle → t.blk.phase ≠ .idle → t.blk.result = s.blk.result) ∧
      (p.rst = false → s.blk.phase ≠ .idle → t.blk.phase = .idle →
        t.blk.result = 1 ∨ t.blk.result = 2 ∨ t.blk.result = 3) ∧
      (p.rst = false → s.blk.phase = .idle → ∀ c, decode p.slot = .cmdRsvd c → t.blk.result = 5) ∧
      (p.rst = false → s.blk.phase = .idle → s.blk.ready = false → ∀ c, decode p.slot = .cmdAcquire c →
        t.blk.result = 4) ∧
      (p.rst = false → s.blk.phase = .idle →
        isCommand (decode p.slot) = false ∨ s.blk.accepts (decode p.slot) = true → t.blk.result = s.blk.result)

/-- R23: DROP over every cycle. -/
def Obligations.DropIsSetByLostCommandsAndClearedByW1c : Prop :=
  ∀ (s : State) (p : Pins) (rest : List Pins), s.cfg.wf = true → s.inputs = p :: rest →
    ∃ t, step s = .next t ∧ t.blk.drop =
      if p.rst then false
      else if s.blk.phase ≠ .idle ∧ isCommand (decode p.slot) = true then true
      else s.blk.drop && !w1cDrop (decode p.slot)

/-- R19: CTRL over every cycle: IE is written by WR_CTRL and by reset only, and enables `irq`; the other bits read 0,
whatever was written. -/
def Obligations.CtrlHoldsIeAlone : Prop :=
  (∀ (s : State) (p : Pins) (rest : List Pins), s.cfg.wf = true → s.inputs = p :: rest →
    ∃ t, step s = .next t ∧ t.blk.irq = (t.blk.ie && t.blk.done) ∧ (p.rst = true → t.blk.ie = false) ∧
      (p.rst = false → ∀ d, decode p.slot = .wrCtrl d → t.blk.ie = d.getLsbD 0) ∧
      (p.rst = false → (∀ d, decode p.slot ≠ .wrCtrl d) → t.blk.ie = s.blk.ie)) ∧
  (∀ (s : State) (dc : Word), ∃ t, exec (.rdCtrl dc) s = .next t ∧ t.out.busRdata.getLsbD 0 = s.blk.ie ∧
    ∀ i, 1 ≤ i → t.out.busRdata.getLsbD i = false)

/-- R26, R45, R105, R107 (derived): DATA over every cycle: both halves keep their values, or become 0 together, or
become the words of the frame just completed together, and that exactly with OK. -/
def Obligations.DataIsNeverTorn : Prop :=
  ∀ (s : State) (p : Pins) (rest : List Pins), s.cfg.wf = true → s.inputs = p :: rest →
    ∃ t, step s = .next t ∧
      (p.rst = true → t.blk.hum = 0 ∧ t.blk.temp = 0) ∧
      (p.rst = false → s.blk.phase ≠ .idle → t.blk.phase ≠ .idle → t.blk.hum = s.blk.hum ∧ t.blk.temp = s.blk.temp) ∧
      (p.rst = false → s.blk.phase ≠ .idle → t.blk.phase = .idle → t.blk.result = 1 →
        t.blk.hum = t.blk.sr.extractLsb' 24 16 ∧ t.blk.temp = t.blk.sr.extractLsb' 8 16) ∧
      (p.rst = false → s.blk.phase ≠ .idle → t.blk.phase = .idle → t.blk.result ≠ 1 →
        t.blk.hum = 0 ∧ t.blk.temp = 0) ∧
      (p.rst = false → s.blk.phase = .idle → s.blk.ready = false → ∀ c, decode p.slot = .cmdAcquire c →
        t.blk.hum = 0 ∧ t.blk.temp = 0) ∧
      (p.rst = false → s.blk.phase = .idle → (s.blk.ready = true ∨ ∀ c, decode p.slot ≠ .cmdAcquire c) →
        t.blk.hum = s.blk.hum ∧ t.blk.temp = s.blk.temp)

/-- R17, R81, R87, R92 (derived): the sequencer follows its path; it leaves it for IDLE by a TIMEOUT only, but for the
end of a frame in WAIT_BIT_LO; POWERUP is entered by INIT only; reset forces IDLE. -/
def Obligations.SequencerFollowsItsPath : Prop :=
  ∀ (s : State) (p : Pins) (rest : List Pins), s.cfg.wf = true → s.inputs = p :: rest →
    ∃ t, step s = .next t ∧
      (p.rst = true → t.blk.phase = .idle) ∧
      (p.rst = false → t.blk.phase ∈ successors s.blk.phase) ∧
      (p.rst = false → s.blk.phase ≠ .idle → t.blk.phase = .idle →
        t.blk.result = 2 ∨ (s.blk.phase = .waitBitLo ∧ t.blk.bitidx = 40)) ∧
      (p.rst = false → s.blk.phase = .idle → t.blk.phase ≠ .idle → s.blk.accepts (decode p.slot) = true) ∧
      (p.rst = false → s.blk.phase = .idle → t.blk.phase = .powerup →
        0 < s.cfg.powerupUs ∧ ∃ c, decode p.slot = .cmdInit c)

/-- R46, R51, R74, R145 (derived): in a busy cycle the host's transaction, whichever it is, changes nothing of the
sequencer: two cycles that differ in the host port only end alike but for `ie`, `done` and `drop`. -/
def Obligations.HostCannotDisturbABusySequencer : Prop :=
  ∀ (s : State) (p q : Pins) (rest : List Pins), s.cfg.wf = true → s.blk.phase ≠ .idle → lineOf p = lineOf q →
    ∃ t u, step { s with inputs := p :: rest } = .next t ∧ step { s with inputs := q :: rest } = .next u ∧
      SameSequencer t.blk u.blk

/-- R46, R74, R145 (derived): the same over a run. Two machines that differ in `ie`, `done`, `drop` and in what their
hosts do, with the same line, stay alike in everything else for as long as the operation lasts, its end included. -/
def Obligations.AcquisitionIsIndependentOfTheHost : Prop :=
  ∀ (s s' : State) (n : Nat), s.cfg.wf = true → s'.cfg = s.cfg → SameSequencer s.blk s'.blk →
    n ≤ s.inputs.length → s'.inputs.map lineOf = s.inputs.map lineOf →
    (∀ m, m < n → ∃ u, run m s = .next u ∧ u.blk.phase ≠ .idle) →
    ∃ t t', run n s = .next t ∧ run n s' = .next t' ∧ SameSequencer t.blk t'.blk

/-- R119: simultaneous events, against `t0`, the same cycle with the bus idle: (a) reset overrides everything; in a busy
cycle (b) a W1C leaves a finish's DONE and clears DROP by its bit, (c) and (f) a command is dropped and the sequencer
goes on as without it, (d) a CTRL write takes effect beside a finish, (e) a read returns `S_n`; (g) in a wait tick the
level seen comes before the timeout. -/
def Obligations.SimultaneousEventsMergeByPriority : Prop :=
  (∀ (s : State) (p : Pins) (rest : List Pins), s.cfg.wf = true →
    ∃ t t0, step { s with inputs := p :: rest } = .next t ∧
      step { s with inputs := { p with busSel := false } :: rest } = .next t0 ∧
      (p.rst = true → t.blk = State.reset.blk) ∧
      (p.rst = false → s.blk.phase ≠ .idle →
        (∀ d, decode p.slot = .wrStatus d → t.blk = { t0.blk with
          done := if t0.blk.phase = .idle then true else t0.blk.done && !d.getLsbD 1,
          drop := t0.blk.drop && !d.getLsbD 3 }) ∧
        (isCommand (decode p.slot) = true → t.blk = { t0.blk with drop := true }) ∧
        (∀ d, decode p.slot = .wrCtrl d → t.blk = { t0.blk with ie := d.getLsbD 0 } ∧
          t.blk.irq = (d.getLsbD 0 && t0.blk.done)) ∧
        (p.busSel = true → p.busWe = false → t.blk = t0.blk ∧ t.out.busRdata = s.blk.regRead p.busAddr))) ∧
  (∀ (s : State) (q : Phase), awaited q = some s.blk.sync2 → s.blk.cnt + 1 = s.cfg.ticksOf q →
    ∃ t, exec q.op s = .next t ∧ t.blk.cnt = 0 ∧
      (q ≠ .waitBitLo → t.blk.phase ≠ .idle ∧ t.blk.result = s.blk.result ∧ t.blk.done = s.blk.done) ∧
      (q = .waitBitLo → t.blk.bitidx = s.blk.bitidx + 1))

/-- R37: `irq` is `ie && done`, as a level: the pin in every cycle shows `S_n`, and once asserted it stays so until DONE
is cleared or IE is written 0. -/
def Obligations.IrqIsALevelOfIeAndDone : Prop :=
  ∀ (s : State) (p : Pins) (rest : List Pins), s.cfg.wf = true → s.inputs = p :: rest →
    ∃ t, step s = .next t ∧ t.out.irq = (s.blk.ie && s.blk.done) ∧ t.blk.irq = (t.blk.ie && t.blk.done) ∧
      (s.blk.irq = true → p.rst = false → t.blk.done = true →
        (∀ d, decode p.slot = .wrCtrl d → d.getLsbD 0 = true) → t.blk.irq = true)

/-- R35, R131 (derived): the pin `dq_oe_pin` in every cycle shows `S_n`, gated by `rst` of the same cycle; in a safe state
it drives the line in START only. -/
def Obligations.LineIsDrivenOnlyInStart : Prop :=
  ∀ (s : State) (p : Pins) (rest : List Pins), s.Safe → s.inputs = p :: rest →
    ∃ t, step s = .next t ∧ t.out.dqOePin = decide (s.blk.phase = .start ∧ p.rst = false)

/-! ## Reset -/

/-- R129: a cycle with reset, from any state and with any transaction, ends in RESET_STATE; a read in it still returns
`S_n`; held, it stays; and the first cycle after it accepts commands. -/
def Obligations.ResetCycleOverridesEverything : Prop :=
  ∀ (s : State) (p : Pins) (rest : List Pins), s.cfg.wf = true → s.inputs = p :: rest → p.rst = true →
    ∃ t, step s = .next t ∧ t.cfg = s.cfg ∧ t.inputs = rest ∧ t.blk = (State.resetWith s.cfg).blk ∧
      (p.busSel = true → p.busWe = false → t.out.busRdata = s.blk.regRead p.busAddr) ∧
      (∀ q ps, rest = q :: ps → q.rst = true → ∃ u, step t = .next u ∧ u.blk = t.blk) ∧
      (∀ q ps c, rest = q :: ps → q.rst = false → decode q.slot = .cmdInit c →
        ∃ u, step t = .next u ∧ u.blk.phase ≠ .idle)

/-- R38: the reset value of every element, for every configuration; the register reads and the outputs after reset.
The inputs listed and the configuration of `State.reset` are the model's (log entries 1 and 2) and not claimed. -/
def Obligations.ResetValuesAreThoseOfTheTable : Prop :=
  ∀ (c : Params) (b : Block), b = (State.resetWith c).blk →
    (b.phase = .idle ∧ b.presc = 0 ∧ b.cnt = 0 ∧ b.lowDur = 0 ∧ b.bitidx = 0 ∧ b.sr = 0 ∧ b.isInit = false ∧
      b.sync1 = true ∧ b.sync2 = true ∧ b.dqOe = false ∧ b.ie = false ∧ b.done = false ∧ b.ready = false ∧
      b.drop = false ∧ b.result = 0 ∧ b.hum = 0 ∧ b.temp = 0) ∧
    (∀ a, b.regRead a = 0) ∧ b.irq = false ∧ (∀ r, b.dqOePin r = false) ∧ State.reset.blk = b

/-! ## The invariant -/

/-- R17, R29 to R31, R33, R35, R58, R79, R81, R96, R100, R106, R107 (derived): every cycle keeps the invariant
`State.Safe`, from every state that meets it, whatever the host and the line do. -/
def Obligations.EveryStepKeepsTheInvariant : Prop := ∀ s t : State, s.Safe → step s = .next t → t.Safe

/-- R38 (derived): the reset state meets the invariant, for every sound configuration. -/
def Obligations.ResetMeetsTheInvariant : Prop :=
  (∀ c : Params, c.wf = true → (State.resetWith c).Safe) ∧ State.reset.Safe

/-- R132, R58, U5 (derived): from ANY state, one cycle with reset is enough: every run after it meets the invariant (so
RESULT is never 6 or 7), with any inputs, listed or free, and never stops. -/
def Obligations.AfterOneResetEveryRunIsSafe : Prop :=
  ∀ (s : State) (p : Pins) (rest : List Pins) (k : Nat), s.cfg.wf = true → s.inputs = p :: rest → p.rst = true →
    ∃ t, run (k + 1) s = .next t ∧ t.Safe ∧ t.blk.result ≠ 6 ∧ t.blk.result ≠ 7

/-! ## Timing -/

/-- R141: a command written in cycle a shows in cycle a+1: BUSY, or DONE for the two immediate results; and ACQUIRE, or
INIT without a power-up wait, drives the line from then on. -/
def Obligations.CommandTakesEffectInTheNextCycle : Prop :=
  ∀ (s : State) (p : Pins) (rest : List Pins), s.cfg.wf = true → s.inputs = p :: rest → p.rst = false →
    s.blk.phase = .idle →
    ∃ t, step s = .next t ∧
      (s.blk.accepts (decode p.slot) = true → t.blk.statusWord.getLsbD 0 = true) ∧
      (isCommand (decode p.slot) = true → s.blk.accepts (decode p.slot) = false →
        t.blk.statusWord.getLsbD 1 = true ∧ t.blk.statusWord.getLsbD 0 = false) ∧
      (∀ c, decode p.slot = .cmdAcquire c → s.blk.ready = true → t.blk.dqOePin false = true) ∧
      (∀ c, decode p.slot = .cmdInit c → s.cfg.powerupUs = 0 → t.blk.dqOePin false = true)

/-- R90: the start-signal window. `s` is cycle a, the cycle of the command; `run k s` is cycle a+k. The line is driven in
cycles `a + P*C + 1` to `a + (P + START)*C` and in no other cycle of the operation; then WAIT_ACK_LO begins, whose k-th
tick falls in cycle `a + (P + START + k)*C`. -/
def Obligations.StartSignalLastsItsWindow : Prop :=
  ∀ (s : State) (p : Pins) (rest : List Pins) (init : Bool) (P n : Nat),
    s.Safe → s.inputs = p :: rest → s.blk.accepts (decode p.slot) = true →
    (init = true ↔ ∃ c, decode p.slot = .cmdInit c) → P = (if init then s.cfg.powerupUs else 0) →
    n = (P + s.cfg.startLowUs) * s.cfg.cyclesPerUs →
    (s.NoReset (n + 1) → ∀ k, k ≤ n + 1 → ∃ t, run k s = .next t ∧
      t.blk.dqOePin false = decide (P * s.cfg.cyclesPerUs + 1 ≤ k ∧ k ≤ n) ∧
      (k = n + 1 → t.blk.phase = .waitAckLo)) ∧
    (∀ k, n < k → s.NoReset k →
      (∀ m, n < m → m ≤ k → ∃ u, run m s = .next u ∧ u.blk.phase ≠ .idle) →
      ∃ t, run k s = .next t ∧ t.blk.dqOePin false = false) ∧
    (∀ k, 1 ≤ k → s.NoReset (n + k * s.cfg.cyclesPerUs) →
      (∀ m, n < m → m ≤ n + k * s.cfg.cyclesPerUs → ∃ u, run m s = .next u ∧ u.blk.phase = .waitAckLo) →
      ∃ t, run (n + k * s.cfg.cyclesPerUs) s = .next t ∧ t.blk.tick s.cfg = true ∧ t.blk.cnt + 1 = k)

/-- R81, R83, R88, R94 (derived): while busy, every cycle without reset either ends the operation or leaves strictly less
of it to run; and an accepted command begins with the bound `B` of R128. -/
def Obligations.EveryBusyCycleShortensTheOperation : Prop :=
  ∀ (s : State) (p : Pins) (rest : List Pins), s.Safe → s.inputs = p :: rest → p.rst = false →
    ∃ t, step s = .next t ∧
      (s.blk.phase ≠ .idle → t.blk.phase = .idle ∨ t.blk.cyclesLeft s.cfg < s.blk.cyclesLeft s.cfg) ∧
      (∀ c, s.blk.phase = .idle → decode p.slot = .cmdInit c →
        t.blk.cyclesLeft s.cfg = s.cfg.bound true * s.cfg.cyclesPerUs) ∧
      (∀ c, s.blk.phase = .idle → s.blk.ready = true → decode p.slot = .cmdAcquire c →
        t.blk.cyclesLeft s.cfg = s.cfg.bound false * s.cfg.cyclesPerUs)

/-- R128: every accepted INIT or ACQUIRE finishes within `B` ticks, whatever the line and the host do, unless a reset
intervenes: for some N, the operation is busy with DONE clear in the N*C cycles after the command's, and over in the next
one, the first with DONE set. NOT_READY and INVALID_ARG finish in the cycle of the write. With the defaults, B is
P + 6800. -/
def Obligations.EveryAcceptedCommandFinishesWithinTheBound : Prop :=
  (∀ (s : State) (p : Pins) (rest : List Pins) (init : Bool),
    s.Safe → s.inputs = p :: rest → s.blk.accepts (decode p.slot) = true →
    (init = true ↔ ∃ c, decode p.slot = .cmdInit c) →
    s.NoReset (1 + s.cfg.bound init * s.cfg.cyclesPerUs) →
    ∃ ticks, 1 ≤ ticks ∧ ticks ≤ s.cfg.bound init ∧
      (∀ m, 1 ≤ m → m ≤ ticks * s.cfg.cyclesPerUs →
        ∃ u, run m s = .next u ∧ u.blk.phase ≠ .idle ∧ u.blk.done = false) ∧
      ∃ t, run (1 + ticks * s.cfg.cyclesPerUs) s = .next t ∧ t.blk.phase = .idle ∧ t.blk.done = true ∧
        (t.blk.result = 1 ∨ t.blk.result = 2 ∨ t.blk.result = 3)) ∧
  (∀ (s : State) (p : Pins) (rest : List Pins), s.cfg.wf = true → s.inputs = p :: rest → p.rst = false →
    s.blk.phase = .idle → isCommand (decode p.slot) = true → s.blk.accepts (decode p.slot) = false →
    ∃ t, step s = .next t ∧ t.blk.phase = .idle ∧ t.blk.done = true) ∧
  (∀ c u : Nat, (Params.withDefaults c u).bound true = u + 6800 ∧ (Params.withDefaults c u).bound false = 6800)

/-- R144, R143 (derived): the least latency. An operation that ends in the cycle after the `n`-th busy one took the start
signal and at least one tick of each of its 83 waits if it ended with OK or CHECKSUM, and at least the shortest way into
a timeout if it ended with TIMEOUT. -/
def Obligations.NoAcquisitionFinishesBeforeItsLeastLatency : Prop :=
  ∀ (s : State) (p : Pins) (rest : List Pins) (init : Bool) (P n : Nat),
    s.Safe → s.inputs = p :: rest → s.blk.accepts (decode p.slot) = true →
    (init = true ↔ ∃ c, decode p.slot = .cmdInit c) → P = (if init then s.cfg.powerupUs else 0) →
    s.NoReset (1 + n) → (∀ m, 1 ≤ m → m ≤ n → ∃ u, run m s = .next u ∧ u.blk.phase ≠ .idle) →
    ∃ t, run (1 + n) s = .next t ∧
      (t.blk.phase = .idle → t.blk.result = 1 ∨ t.blk.result = 3 →
        (P + s.cfg.startLowUs + 83) * s.cfg.cyclesPerUs ≤ n) ∧
      (t.blk.phase = .idle → t.blk.result = 2 →
        (P + s.cfg.startLowUs + min s.cfg.toAckLoUs (min (1 + s.cfg.toAckHiUs) (min (2 + s.cfg.toDataLoUs)
          (min (3 + s.cfg.toBitHiUs) (4 + s.cfg.toBitLoUs))))) * s.cfg.cyclesPerUs ≤ n)

/-! ## The host's reading of DATA -/

/-- R109, R110, R105, R107 (derived): the block delivers the raw words and the host's convention alone makes values of
them. For every convention: what the host makes of DATA as a read returns it; after a valid frame, the convention of its
bytes 2 and 3 and its bytes 0 and 1 in tenths; after any other, the convention of 0 and humidity 0; and without a sign or
an offset, `temp / 10`. That a convention is a function of the raw word is the model's form (log entry 15). -/
def Obligations.HostReadsTheRawWordUnderItsConvention : Prop :=
  ∀ (conv : TempSignConvention) (s : State),
    (∀ dc : Word, ∃ t, exec (.rdData dc) s = .next t ∧ t.blk = s.blk ∧
      hostTemperature conv s = conv (t.out.busRdata.extractLsb' 0 16) / 10 ∧
      hostHumidity s = ((t.out.busRdata.extractLsb' 16 16).toNat : Rat) / 10) ∧
    (∀ f : Frame, frameValid f = true →
      hostTemperature conv (s.setBlk (s.blk.validate f)) = conv (frameByte f 2 ++ frameByte f 3) / 10 ∧
      hostHumidity (s.setBlk (s.blk.validate f)) = ((frameByte f 0 ++ frameByte f 1).toNat : Rat) / 10) ∧
    (∀ f : Frame, frameValid f = false →
      hostTemperature conv (s.setBlk (s.blk.validate f)) = conv 0 / 10 ∧
      hostHumidity (s.setBlk (s.blk.validate f)) = 0) ∧
    hostTemperature TempSignConvention.unsigned s = (s.blk.temp.toNat : Rat) / 10
end

