-- ==== Sys2Proof/Laws/Encoding.lean ====
section
/-! SUPPORT. The fields of a transaction word and the masks of opcode_table.json over them (R53). -/

namespace Sys2Proof

/-- Where the bits of a transaction word come from. -/
theorem mkTxn_getLsbD (we : Bool) (a : BitVec 3) (d : Word) (i : Nat) :
    (mkTxn we a d).getLsbD i =
      if i < 32 then d.getLsbD i else if i < 35 then a.getLsbD (i - 32) else (decide (i = 35) && we) := by
  have h := BitVec.getLsbD_append (x := BitVec.ofBool we ++ a) (y := d) (i := i)
  refine h.trans ?_
  by_cases h1 : i < 32
  · simp [h1]
  · have h2 := BitVec.getLsbD_append (x := BitVec.ofBool we) (y := a) (i := i - 32)
    simp only [h1, if_false, h2]
    by_cases h3 : i < 35
    · have h4 : i - 32 < 3 := by omega
      simp [h3, h4]
    · have h4 : ¬ i - 32 < 3 := by omega
      by_cases h5 : i = 35
      · subst h5; simp
      · have h6 : i - 32 - 3 ≠ 0 := by omega
        simp [h3, h4, h5, h6]

@[simp] theorem we_mkTxn (we : Bool) (a : BitVec 3) (d : Word) : Txn.we (mkTxn we a d) = we := by
  rw [Txn.we, mkTxn_getLsbD]
  simp

@[simp] theorem addr_mkTxn (we : Bool) (a : BitVec 3) (d : Word) : Txn.addr (mkTxn we a d) = a := by
  apply BitVec.eq_of_getLsbD_eq
  intro i hi
  have h : 32 + i < 35 := by omega
  simp [Txn.addr, mkTxn_getLsbD, hi, h]

@[simp] theorem wdata_mkTxn (we : Bool) (a : BitVec 3) (d : Word) : Txn.wdata (mkTxn we a d) = d := by
  apply BitVec.eq_of_getLsbD_eq
  intro i hi
  simp [Txn.wdata, mkTxn_getLsbD, hi]

/-- A transaction word is its three fields. -/
theorem mkTxn_fields (t : Txn) : mkTxn (Txn.we t) (Txn.addr t) (Txn.wdata t) = t := by
  apply BitVec.eq_of_getLsbD_eq
  intro i hi
  rw [mkTxn_getLsbD]
  by_cases h1 : i < 32
  · simp [Txn.wdata, h1]
  · by_cases h2 : i < 35
    · have h3 : i - 32 < 3 := by omega
      have h4 : 32 + (i - 32) = i := by omega
      simp [Txn.addr, h1, h2, h3, h4]
    · have h3 : i = 35 := by omega
      subst h3
      simp [Txn.we]

@[simp] theorem op_mkCmd (o : BitVec 2) (c : BitVec 30) : Txn.op (mkCmd o c) = o := by
  apply BitVec.eq_of_getLsbD_eq
  intro i hi
  have h := BitVec.getLsbD_append (x := c) (y := o) (i := i)
  have h1 : i < 32 := by omega
  simpa [Txn.op, mkCmd, mkTxn_getLsbD, hi, h1] using h

@[simp] theorem opIgnored_mkCmd (o : BitVec 2) (c : BitVec 30) : Txn.opIgnored (mkCmd o c) = c := by
  apply BitVec.eq_of_getLsbD_eq
  intro i hi
  have h := BitVec.getLsbD_append (x := c) (y := o) (i := 2 + i)
  have h1 : 2 + i < 32 := by omega
  have h2 : ¬ 2 + i < 2 := by omega
  simpa [Txn.opIgnored, mkCmd, mkTxn_getLsbD, hi, h1, h2] using h

@[simp] theorem we_mkCmd (o : BitVec 2) (c : BitVec 30) : Txn.we (mkCmd o c) = true := we_mkTxn _ _ _

@[simp] theorem addr_mkCmd (o : BitVec 2) (c : BitVec 30) : Txn.addr (mkCmd o c) = 0 := addr_mkTxn _ _ _

/-- The mask of the rows that `we` and `addr` decide. -/
theorem and_headMask (t : Txn) : t &&& 0xf00000000#36 = mkTxn (Txn.we t) (Txn.addr t) 0 := by
  have hm : ∀ i < 36, (0xf00000000#36 : Txn).getLsbD i = decide (32 ≤ i) := by decide
  apply BitVec.eq_of_getLsbD_eq
  intro i hi
  rw [BitVec.getLsbD_and, hm i hi, ← mkTxn_fields t, mkTxn_getLsbD, mkTxn_getLsbD, we_mkTxn, addr_mkTxn]
  by_cases h : i < 32
  · simp [h]
  · simp [h, Nat.le_of_not_lt h]

/-- The mask of the reserved-word rows: `we` and the top bit of `addr`. -/
theorem and_rsvdMask (t : Txn) :
    t &&& 0xc00000000#36 = mkTxn (Txn.we t) (if (Txn.addr t).getLsbD 2 then 4 else 0) 0 := by
  have hm : ∀ i < 36, (0xc00000000#36 : Txn).getLsbD i = decide (34 ≤ i) := by decide
  apply BitVec.eq_of_getLsbD_eq
  intro i hi
  rw [BitVec.getLsbD_and, hm i hi, ← mkTxn_fields t, mkTxn_getLsbD, mkTxn_getLsbD, we_mkTxn, addr_mkTxn]
  have h4 : ∀ k < 3, (4#3).getLsbD k = decide (k = 2) := by decide
  by_cases h1 : i < 32
  · have h2 : ¬ 34 ≤ i := by omega
    simp [h1, h2]
  · by_cases h2 : i < 35
    · have h3 := h4 (i - 32) (by omega)
      by_cases h5 : i = 34
      · subst h5; cases h6 : (Txn.addr t).getLsbD 2 <;> simp
      · have h6 : ¬ 34 ≤ i := by omega
        have h7 : ¬ i - 32 = 2 := by omega
        cases (Txn.addr t).getLsbD 2 <;> simp_all
    · have h3 : i = 35 := by omega
      subst h3
      simp

/-- The mask of the command rows: `we`, `addr` and OP. -/
theorem and_cmdMask (t : Txn) :
    t &&& 0xf00000003#36 = mkTxn (Txn.we t) (Txn.addr t) ((0 : BitVec 30) ++ Txn.op t) := by
  have hm : ∀ i < 36, (0xf00000003#36 : Txn).getLsbD i = (decide (32 ≤ i) || decide (i < 2)) := by decide
  apply BitVec.eq_of_getLsbD_eq
  intro i hi
  have ha := BitVec.getLsbD_append (x := (0 : BitVec 30)) (y := Txn.op t) (i := i)
  rw [BitVec.getLsbD_and, hm i hi]
  rw [mkTxn_getLsbD, ha]
  by_cases h1 : i < 2
  · have h2 : i < 32 := by omega
    simp [h1, h2, Txn.op]
  · by_cases h2 : i < 32
    · have h3 : ¬ 32 ≤ i := by omega
      simp [h1, h2, h3]
    · have h3 : 32 ≤ i := by omega
      have h4 := congrArg (fun u => u.getLsbD i) (mkTxn_fields t)
      simp only [mkTxn_getLsbD, h2, if_false] at h4
      simp [h2, h3, ← h4]

end Sys2Proof
end

