-- ==== Sys2Proof/Laws/State.lean ====
section
/-! SUPPORT. One lemma per field per update of State and of Block, true by `rfl`, so that no proof unfolds a record
update. -/

namespace Sys2Proof.Machine

/-! ## State -/

@[simp] theorem State.setBlk_cfg (s : State) (b : Block) : (s.setBlk b).cfg = s.cfg := rfl
@[simp] theorem State.setBlk_blk (s : State) (b : Block) : (s.setBlk b).blk = b := rfl
@[simp] theorem State.setBlk_inputs (s : State) (b : Block) : (s.setBlk b).inputs = s.inputs := rfl
@[simp] theorem State.setBlk_cycle (s : State) (b : Block) : (s.setBlk b).cycle = s.cycle := rfl
@[simp] theorem State.setBlk_out (s : State) (b : Block) : (s.setBlk b).out = s.out := rfl
@[simp] theorem State.setBlk_setBlk (s : State) (b c : Block) : (s.setBlk b).setBlk c = s.setBlk c := rfl
@[simp] theorem State.setBlk_self (s : State) : s.setBlk s.blk = s := rfl

@[simp] theorem State.setRdata_cfg (s : State) (v : Word) : (s.setRdata v).cfg = s.cfg := rfl
@[simp] theorem State.setRdata_blk (s : State) (v : Word) : (s.setRdata v).blk = s.blk := rfl
@[simp] theorem State.setRdata_inputs (s : State) (v : Word) : (s.setRdata v).inputs = s.inputs := rfl
@[simp] theorem State.setRdata_cycle (s : State) (v : Word) : (s.setRdata v).cycle = s.cycle := rfl
@[simp] theorem State.setRdata_busRdata (s : State) (v : Word) : (s.setRdata v).out.busRdata = v := rfl
@[simp] theorem State.setRdata_irq (s : State) (v : Word) : (s.setRdata v).out.irq = s.out.irq := rfl
@[simp] theorem State.setRdata_dqOePin (s : State) (v : Word) : (s.setRdata v).out.dqOePin = s.out.dqOePin := rfl

@[simp] theorem State.resetWith_cfg (p : Params) : (State.resetWith p).cfg = p := rfl
@[simp] theorem State.resetWith_blk (p : Params) : (State.resetWith p).blk = Block.reset := rfl
@[simp] theorem State.resetWith_inputs (p : Params) : (State.resetWith p).inputs = [] := rfl

/-! ## The synchroniser and the prescaler -/

section
variable (v w : Bool) (p : Params) (n : Nat) (b : Block)

@[simp] theorem Block.synchronise_phase : (b.synchronise v w).phase = b.phase := rfl
@[simp] theorem Block.synchronise_presc : (b.synchronise v w).presc = b.presc := rfl
@[simp] theorem Block.synchronise_cnt : (b.synchronise v w).cnt = b.cnt := rfl
@[simp] theorem Block.synchronise_lowDur : (b.synchronise v w).lowDur = b.lowDur := rfl
@[simp] theorem Block.synchronise_bitidx : (b.synchronise v w).bitidx = b.bitidx := rfl
@[simp] theorem Block.synchronise_sr : (b.synchronise v w).sr = b.sr := rfl
@[simp] theorem Block.synchronise_isInit : (b.synchronise v w).isInit = b.isInit := rfl
@[simp] theorem Block.synchronise_sync1 : (b.synchronise v w).sync1 = v := rfl
@[simp] theorem Block.synchronise_sync2 : (b.synchronise v w).sync2 = w := rfl
@[simp] theorem Block.synchronise_dqOe : (b.synchronise v w).dqOe = b.dqOe := rfl
@[simp] theorem Block.synchronise_ie : (b.synchronise v w).ie = b.ie := rfl
@[simp] theorem Block.synchronise_done : (b.synchronise v w).done = b.done := rfl
@[simp] theorem Block.synchronise_ready : (b.synchronise v w).ready = b.ready := rfl
@[simp] theorem Block.synchronise_drop : (b.synchronise v w).drop = b.drop := rfl
@[simp] theorem Block.synchronise_result : (b.synchronise v w).result = b.result := rfl
@[simp] theorem Block.synchronise_hum : (b.synchronise v w).hum = b.hum := rfl
@[simp] theorem Block.synchronise_temp : (b.synchronise v w).temp = b.temp := rfl

@[simp] theorem Block.advancePresc_phase : (b.advancePresc p n).phase = b.phase := rfl
@[simp] theorem Block.advancePresc_presc : (b.advancePresc p n).presc = (n + 1) % p.cyclesPerUs := rfl
@[simp] theorem Block.advancePresc_cnt : (b.advancePresc p n).cnt = b.cnt := rfl
@[simp] theorem Block.advancePresc_lowDur : (b.advancePresc p n).lowDur = b.lowDur := rfl
@[simp] theorem Block.advancePresc_bitidx : (b.advancePresc p n).bitidx = b.bitidx := rfl
@[simp] theorem Block.advancePresc_sr : (b.advancePresc p n).sr = b.sr := rfl
@[simp] theorem Block.advancePresc_isInit : (b.advancePresc p n).isInit = b.isInit := rfl
@[simp] theorem Block.advancePresc_sync1 : (b.advancePresc p n).sync1 = b.sync1 := rfl
@[simp] theorem Block.advancePresc_sync2 : (b.advancePresc p n).sync2 = b.sync2 := rfl
@[simp] theorem Block.advancePresc_dqOe : (b.advancePresc p n).dqOe = b.dqOe := rfl
@[simp] theorem Block.advancePresc_ie : (b.advancePresc p n).ie = b.ie := rfl
@[simp] theorem Block.advancePresc_done : (b.advancePresc p n).done = b.done := rfl
@[simp] theorem Block.advancePresc_ready : (b.advancePresc p n).ready = b.ready := rfl
@[simp] theorem Block.advancePresc_drop : (b.advancePresc p n).drop = b.drop := rfl
@[simp] theorem Block.advancePresc_result : (b.advancePresc p n).result = b.result := rfl
@[simp] theorem Block.advancePresc_hum : (b.advancePresc p n).hum = b.hum := rfl
@[simp] theorem Block.advancePresc_temp : (b.advancePresc p n).temp = b.temp := rfl

end

/-! ## W1C -/

@[simp] theorem Block.clearDone_done (b : Block) : b.clearDone.done = false := rfl
@[simp] theorem Block.clearDone_drop (b : Block) : b.clearDone.drop = b.drop := rfl
@[simp] theorem Block.clearDrop_done (b : Block) : b.clearDrop.done = b.done := rfl
@[simp] theorem Block.clearDrop_drop (b : Block) : b.clearDrop.drop = false := rfl

end Sys2Proof.Machine
end

