-- ==== Sys2Proof/Laws/Ops.lean ====
section
/-! SUPPORT. For each shared operation, once, everything it can do. Later proofs cite these and do not unfold. -/

namespace Sys2Proof.Machine

/-! ## Outcomes -/

@[simp] theorem andThen_next (s : State) (k : State → Answer) : andThen (.next s) k = k s := rfl
@[simp] theorem andThen_fault (r : Fault) (k : State → Answer) : andThen (.fault r) k = .fault r := rfl
@[simp] theorem andThen_refused (r : Refusal) (k : State → Answer) : andThen (.refused r) k = .refused r := rfl

/-- A chain answers a next state only through a next state of its first part. -/
theorem andThen_eq_next {o : Answer} {k : State → Answer} {t : State} (h : andThen o k = .next t) :
    ∃ s, o = .next s ∧ k s = .next t := by
  cases o with
  | next s => exact ⟨s, rfl, h⟩
  | fault r => cases h
  | refused r => cases h

/-! ## Derived signals -/

theorem Block.busy_iff (b : Block) : b.busy = true ↔ b.phase ≠ .idle := by simp [Block.busy]

theorem Block.busy_eq_false_iff (b : Block) : b.busy = false ↔ b.phase = .idle := by simp [Block.busy]

/-- A tick is a busy cycle at the prescaler's last count (R36). -/
theorem Block.tick_iff (p : Params) (b : Block) :
    b.tick p = true ↔ b.phase ≠ .idle ∧ b.presc = p.cyclesPerUs - 1 := by
  simp [Block.tick, Block.busy]

/-! ## `finish` (R106), field by field -/

section
variable (res : Result) (f : Frame) (b : Block)

@[simp] theorem Block.finish_phase : (b.finish res f).phase = .idle := rfl
@[simp] theorem Block.finish_presc : (b.finish res f).presc = b.presc := rfl
@[simp] theorem Block.finish_cnt : (b.finish res f).cnt = 0 := rfl
@[simp] theorem Block.finish_lowDur : (b.finish res f).lowDur = b.lowDur := rfl
@[simp] theorem Block.finish_bitidx : (b.finish res f).bitidx = b.bitidx := rfl
@[simp] theorem Block.finish_sr : (b.finish res f).sr = b.sr := rfl
@[simp] theorem Block.finish_isInit : (b.finish res f).isInit = b.isInit := rfl
@[simp] theorem Block.finish_sync1 : (b.finish res f).sync1 = b.sync1 := rfl
@[simp] theorem Block.finish_sync2 : (b.finish res f).sync2 = b.sync2 := rfl
@[simp] theorem Block.finish_dqOe : (b.finish res f).dqOe = false := rfl
@[simp] theorem Block.finish_ie : (b.finish res f).ie = b.ie := rfl
@[simp] theorem Block.finish_done : (b.finish res f).done = true := rfl
@[simp] theorem Block.finish_ready : (b.finish res f).ready = b.readyAfter res := rfl
@[simp] theorem Block.finish_drop : (b.finish res f).drop = b.drop := rfl
@[simp] theorem Block.finish_result : (b.finish res f).result = resultCode res := rfl
@[simp] theorem Block.finish_hum : (b.finish res f).hum = b.humAfter res f := rfl
@[simp] theorem Block.finish_temp : (b.finish res f).temp = b.tempAfter res f := rfl

end

theorem Block.readyAfter_init (res : Result) (b : Block) (h : endsAcquisition res = true) (hi : b.isInit = true) :
    b.readyAfter res = decide (res = .ok) := by simp [readyAfter, h, hi]

theorem Block.readyAfter_acquire (res : Result) (b : Block) (hi : b.isInit = false) :
    b.readyAfter res = b.ready := by simp [readyAfter, hi]

/-- `validate` is a `finish` with OK or with CHECKSUM, by the checksum (R102, R104). -/
theorem Block.validate_cases (f : Frame) (b : Block) :
    (frameValid f = true ∧ b.validate f = b.finish .ok f) ∨
      (frameValid f = false ∧ b.validate f = b.finish .checksum f) := by
  unfold Block.validate
  cases h : frameValid f <;> simp

/-! ## `startAcq` (R79), field by field -/

section
variable (p : Params) (init : Bool) (b : Block)

@[simp] theorem Block.startAcq_phase : (b.startAcq p init).phase = (if powersUp p init then .powerup else .start) := rfl
@[simp] theorem Block.startAcq_presc : (b.startAcq p init).presc = 0 := rfl
@[simp] theorem Block.startAcq_cnt : (b.startAcq p init).cnt = 0 := rfl
@[simp] theorem Block.startAcq_lowDur : (b.startAcq p init).lowDur = 0 := rfl
@[simp] theorem Block.startAcq_bitidx : (b.startAcq p init).bitidx = 0 := rfl
@[simp] theorem Block.startAcq_sr : (b.startAcq p init).sr = 0 := rfl
@[simp] theorem Block.startAcq_isInit : (b.startAcq p init).isInit = init := rfl
@[simp] theorem Block.startAcq_sync1 : (b.startAcq p init).sync1 = b.sync1 := rfl
@[simp] theorem Block.startAcq_sync2 : (b.startAcq p init).sync2 = b.sync2 := rfl
@[simp] theorem Block.startAcq_dqOe : (b.startAcq p init).dqOe = !powersUp p init := rfl
@[simp] theorem Block.startAcq_ie : (b.startAcq p init).ie = b.ie := rfl
@[simp] theorem Block.startAcq_done : (b.startAcq p init).done = false := rfl
@[simp] theorem Block.startAcq_ready : (b.startAcq p init).ready = b.ready := rfl
@[simp] theorem Block.startAcq_drop : (b.startAcq p init).drop = b.drop := rfl
@[simp] theorem Block.startAcq_result : (b.startAcq p init).result = b.result := rfl
@[simp] theorem Block.startAcq_hum : (b.startAcq p init).hum = b.hum := rfl
@[simp] theorem Block.startAcq_temp : (b.startAcq p init).temp = b.temp := rfl

theorem Block.startAcq_busy : (b.startAcq p init).busy = true := by
  cases h : powersUp p init <;> simp [Block.busy, h]

end

/-! ## The command gate (R74) and ACQUIRE (R77) -/

theorem Block.command_busy {act : Block → Block} {b : Block} (h : b.busy = true) :
    b.command act = { b with drop := true } := by simp [command, h]

theorem Block.command_idle {act : Block → Block} {b : Block} (h : b.busy = false) : b.command act = act b := by
  simp [command, h]

theorem Block.acquire_ready {p : Params} {b : Block} (h : b.ready = true) : b.acquire p = b.startAcq p false := by
  simp [acquire, h]

theorem Block.acquire_notReady {p : Params} {b : Block} (h : b.ready = false) :
    b.acquire p = b.finish .notReady b.sr := by simp [acquire, h]

/-! ## The sequencer's operations -/

/-- Everything `Wait` can do at a tick (R83). -/
theorem Block.wait_cases (level : Bool) (timeout : Nat) (onSeen : Nat → Block → Block) (b : Block) :
    (b.sync2 = level ∧ b.wait level timeout onSeen = onSeen (b.cnt + 1) { b with cnt := 0 }) ∨
      (b.sync2 ≠ level ∧ timeout ≤ b.cnt + 1 ∧ b.wait level timeout onSeen = b.finish .timeout b.sr) ∨
      (b.sync2 ≠ level ∧ b.cnt + 1 < timeout ∧ b.wait level timeout onSeen = { b with cnt := b.cnt + 1 }) := by
  unfold Block.wait
  by_cases h : b.sync2 = level
  · simp [h]
  · by_cases h2 : timeout ≤ b.cnt + 1
    · simp [h, h2]
    · simp [h, h2, Nat.lt_of_not_le h2]

theorem Block.wait_seen {level : Bool} {b : Block} (h : b.sync2 = level) (timeout : Nat)
    (onSeen : Nat → Block → Block) :
    b.wait level timeout onSeen = onSeen (b.cnt + 1) { b with cnt := 0 } := by simp [wait, h]

theorem Block.wait_timeout {level : Bool} {timeout : Nat} {b : Block} (h : b.sync2 ≠ level)
    (ht : timeout ≤ b.cnt + 1) (onSeen : Nat → Block → Block) :
    b.wait level timeout onSeen = b.finish .timeout b.sr := by simp [wait, h, ht]

theorem Block.wait_counts {level : Bool} {timeout : Nat} {b : Block} (h : b.sync2 ≠ level)
    (ht : b.cnt + 1 < timeout) (onSeen : Nat → Block → Block) :
    b.wait level timeout onSeen = { b with cnt := b.cnt + 1 } := by simp [wait, h, Nat.not_le.mpr ht]

/-- Everything a phase of fixed length can do at a tick (R81, R82). -/
theorem Block.count_cases (length : Nat) (onEnd : Block → Block) (b : Block) :
    (b.cnt + 1 = length ∧ b.count length onEnd = onEnd { b with cnt := 0 }) ∨
      (b.cnt + 1 ≠ length ∧ b.count length onEnd = { b with cnt := b.cnt + 1 }) := by
  unfold Block.count
  by_cases h : b.cnt + 1 = length <;> simp [h]

/-- Everything the end of a data bit can do (R94): the next bit, or the validation of the 40 received. -/
theorem Block.bitDone_cases (h : Nat) (b : Block) :
    (b.bitidx + 1 = nbits ∧
        b.bitDone h = ({ b with sr := shiftIn b.sr (bitval h b.lowDur), bitidx := nbits } : Block).validate
          (shiftIn b.sr (bitval h b.lowDur))) ∨
      (b.bitidx + 1 ≠ nbits ∧
        b.bitDone h = { b with sr := shiftIn b.sr (bitval h b.lowDur), bitidx := b.bitidx + 1,
                               phase := .waitBitHi }) := by
  unfold Block.bitDone
  by_cases hk : b.bitidx + 1 = nbits
  · left; simp [hk]
  · right; simp [hk]

/-! ## The comparator, the shift and the checksum -/

@[simp] theorem bitval_eq_true (h l : Nat) : bitval h l = true ↔ l < h := by simp [bitval]

@[simp] theorem bitval_eq_false (h l : Nat) : bitval h l = false ↔ h ≤ l := by simp [bitval]

/-- The shift on bits (R96): the new bit at 0, every other one place up. -/
theorem shiftIn_getLsbD (f : Frame) (b : Bool) (i : Nat) :
    (shiftIn f b).getLsbD i = if i = 0 then b else (decide (i < 40) && f.getLsbD (i - 1)) := by
  have h := BitVec.getLsbD_append (x := f.extractLsb' 0 39) (y := BitVec.ofBool b) (i := i)
  refine h.trans ?_
  cases i with
  | zero => simp
  | succ n =>
    have h40 : n + 1 < 40 ↔ n < 39 := by omega
    by_cases hn : n < 39 <;> simp [hn, h40]

/-- The shift on numbers (R96): times two, the new bit added, bit 39 lost. -/
theorem shiftIn_toNat (f : Frame) (b : Bool) : (shiftIn f b).toNat = (2 * f.toNat + b.toNat) % 2 ^ 40 := by
  have h : (shiftIn f b).toNat = (f.toNat % 2 ^ 39) <<< 1 ||| b.toNat := by
    have h := BitVec.toNat_append (f.extractLsb' 0 39) (BitVec.ofBool b)
    refine h.trans ?_
    cases b <;> simp
  have hb : b.toNat < 2 ^ 1 := by cases b <;> decide
  rw [h, ← Nat.shiftLeft_add_eq_or_of_lt hb, Nat.shiftLeft_eq]
  omega

end Sys2Proof.Machine
end

