-- ==== Sys2Proof/Laws/Exec.lean ====
section
/-! SUPPORT. What `exec` can do, said once: every instruction answers a next state, which differs from the old one in
the block's registers (`effect`) and in `bus_rdata` (`readData`) only. -/

namespace Sys2Proof.Machine

/-- The block's registers after an instruction, as a function of the parameters and of the registers. -/
def effect (p : Params) : Instr → Block → Block
  | .rdCmd _, b => b
  | .rdCtrl _, b => b
  | .rdStatus _, b => b
  | .rdData _, b => b
  | .rdRsvd _ _, b => b
  | .cmdNop _, b => b
  | .cmdInit _, b => b.command (Block.startAcq p true)
  | .cmdAcquire _, b => b.command (Block.acquire p)
  | .cmdRsvd _, b => b.command (Block.finish .invalidArg b.sr)
  | .wrCtrl d, b => { b with ie := ctrlIe d }
  | .wrStatus d, b => { b with done := b.done && !clearsDone d, drop := b.drop && !clearsDrop d }
  | .wrData _, b => b
  | .wrRsvd _ _, b => b
  | .busIdle, b => b
  | .phaseIdle, b => { b with presc := 0 }
  | .phasePowerup, b => b.count p.powerupUs fun b => { b with phase := .start, dqOe := true }
  | .phaseStart, b => b.count p.startLowUs fun b => { b with phase := .waitAckLo, dqOe := false }
  | .phaseWaitAckLo, b => b.wait false p.toAckLoUs fun _ b => { b with phase := .waitAckHi }
  | .phaseWaitAckHi, b => b.wait true p.toAckHiUs fun _ b => { b with phase := .waitDataLo }
  | .phaseWaitDataLo, b => b.wait false p.toDataLoUs fun _ b => { b with phase := .waitBitHi, bitidx := 0 }
  | .phaseWaitBitHi, b => b.wait true p.toBitHiUs fun j b => { b with lowDur := j, phase := .waitBitLo }
  | .phaseWaitBitLo, b => b.wait false p.toBitLoUs Block.bitDone

/-- `bus_rdata` after an instruction that found `v` on it. -/
def readData (b : Block) (v : Word) : Instr → Word
  | .rdCmd _ => 0
  | .rdCtrl _ => b.ctrlWord
  | .rdStatus _ => b.statusWord
  | .rdData _ => b.dataWord
  | .rdRsvd _ _ => 0
  | _ => v

/-- Everything an instruction can do. -/
theorem exec_eq (i : Instr) (s : State) :
    exec i s = .next { s with blk := effect s.cfg i s.blk,
                              out := { s.out with busRdata := readData s.blk s.out.busRdata i } } := by
  cases i with
  | wrStatus d =>
    have h : (let c := if clearsDone d then s.blk.clearDone else s.blk
        if clearsDrop d then c.clearDrop else c) = effect s.cfg (.wrStatus d) s.blk := by
      cases hd : clearsDone d <;> cases hr : clearsDrop d <;>
        simp [effect, hd, hr, Block.clearDone, Block.clearDrop]
    simp only [exec, execWrStatus, State.update, State.setBlk, h, readData]
  | _ => rfl

/-- A phase's operation drives no output. -/
theorem readData_op (b : Block) (v : Word) (q : Phase) : readData b v q.op = v := by cases q <;> rfl

/-- No instruction stops: every meaning answers a next state. -/
theorem exec_total (i : Instr) (s : State) : ∃ t, exec i s = .next t := ⟨_, exec_eq i s⟩

/-- What no instruction touches. -/
theorem exec_frame {i : Instr} {s t : State} (h : exec i s = .next t) :
    t.cfg = s.cfg ∧ t.inputs = s.inputs ∧ t.cycle = s.cycle ∧ t.out.irq = s.out.irq ∧
      t.out.dqOePin = s.out.dqOePin := by
  rw [exec_eq] at h
  cases h
  exact ⟨rfl, rfl, rfl, rfl, rfl⟩

/-- A phase's operation is on the block's registers only. -/
theorem exec_op_eq (q : Phase) (s : State) : exec q.op s = .next (s.setBlk (effect s.cfg q.op s.blk)) := by
  rw [exec_eq, readData_op]
  rfl

theorem exec_blk {i : Instr} {s t : State} (h : exec i s = .next t) : t.blk = effect s.cfg i s.blk := by
  rw [exec_eq] at h
  cases h
  rfl

@[simp] theorem Phase.ofCode_code (p : Phase) : Phase.ofCode p.code = p := by cases p <;> rfl

@[simp] theorem decode_phase_code (p : Phase) : decode (.phase p.code) = p.op := by
  simp [decode]

/-- What the port of a cycle decodes to is a host transaction, never a sequencer operation (R57). -/
theorem decode_slot_ne_op (p : Pins) (q : Phase) : decode p.slot ≠ q.op := by
  cases q <;> simp only [Phase.op] <;> unfold Pins.slot <;> split <;>
    simp only [decode, decodeTxn, decodeRead, decodeWrite, decodeCommand, ne_eq] <;>
    (repeat' split) <;> intro h <;> cases h

/-- While busy, a host transaction changes `ie`, `done` and `drop` only (R46, R51, R74). -/
theorem effect_host_busy (c : Params) (p : Pins) {b : Block} (hb : b.busy = true) :
    effect c (decode p.slot) b =
      { b with ie := (effect c (decode p.slot) b).ie, done := (effect c (decode p.slot) b).done,
               drop := (effect c (decode p.slot) b).drop } := by
  cases h : decode p.slot <;>
    first
    | exact absurd h (decode_slot_ne_op p .idle)
    | exact absurd h (decode_slot_ne_op p .powerup)
    | exact absurd h (decode_slot_ne_op p .start)
    | exact absurd h (decode_slot_ne_op p .waitAckLo)
    | exact absurd h (decode_slot_ne_op p .waitAckHi)
    | exact absurd h (decode_slot_ne_op p .waitDataLo)
    | exact absurd h (decode_slot_ne_op p .waitBitHi)
    | exact absurd h (decode_slot_ne_op p .waitBitLo)
    | simp only [effect, Block.command_busy hb]

end Sys2Proof.Machine
end

