-- ==== Sys2Proof/Laws/PerInstr.lean ====
section
/-! SUPPORT. What holds of every instruction as syntax, one lemma per constructor. The family `EncodesInItsRow`: the
encoding of a well-formed instruction is accepted by the match and mask of its own row of opcode_table.json. -/

namespace Sys2Proof.Laws.EncodesInItsRow

/-- The row of the instruction accepts its encoding. -/
def Statement (i : Instr) : Prop :=
  i.wf = true → (opcodeTable.getD i.rowIndex .noWord).accepts (encode i) = true

/-- A row that `we` and `addr` decide accepts every word with these. -/
theorem head_accepts (m : Txn) (we : Bool) (a : BitVec 3) (d : Word) (h : mkTxn we a 0 = m) :
    (TableRow.bus m 0xf00000000).accepts (.bus (mkTxn we a d)) = true := by
  have hm := and_headMask (mkTxn we a d)
  rw [we_mkTxn, addr_mkTxn, h] at hm
  exact decide_eq_true hm

/-- A command row accepts every word with its OP. -/
theorem cmd_accepts (m : Txn) (o : BitVec 2) (dc : BitVec 30) (h : mkCmd o 0 = m) :
    (TableRow.bus m 0xf00000003).accepts (.bus (mkCmd o dc)) = true := by
  have hm := and_cmdMask (mkCmd o dc)
  rw [we_mkCmd, addr_mkCmd, op_mkCmd] at hm
  exact decide_eq_true (hm.trans h)

/-- A reserved-word row accepts every word with its `we` and a word index 4 to 7. -/
theorem rsvd_accepts (m : Txn) (we : Bool) (a : BitVec 3) (d : Word) (ha : reservedAddr a = true)
    (h : mkTxn we 4 0 = m) : (TableRow.bus m 0xc00000000).accepts (.bus (mkTxn we a d)) = true := by
  have hm := and_rsvdMask (mkTxn we a d)
  rw [we_mkTxn, addr_mkTxn, if_pos (show a.getLsbD 2 = true from ha)] at hm
  exact decide_eq_true (hm.trans h)

theorem rdCmd (dc : Word) : Statement (.rdCmd dc) := fun _ => head_accepts _ false 0 dc (by decide)
theorem rdCtrl (dc : Word) : Statement (.rdCtrl dc) := fun _ => head_accepts _ false 1 dc (by decide)
theorem rdStatus (dc : Word) : Statement (.rdStatus dc) := fun _ => head_accepts _ false 2 dc (by decide)
theorem rdData (dc : Word) : Statement (.rdData dc) := fun _ => head_accepts _ false 3 dc (by decide)
theorem rdRsvd (addr : BitVec 3) (dc : Word) : Statement (.rdRsvd addr dc) := fun h => rsvd_accepts _ false addr dc h (by decide)
theorem cmdNop (dc : BitVec 30) : Statement (.cmdNop dc) := fun _ => cmd_accepts _ 0 dc (by decide)
theorem cmdInit (dc : BitVec 30) : Statement (.cmdInit dc) := fun _ => cmd_accepts _ 1 dc (by decide)
theorem cmdAcquire (dc : BitVec 30) : Statement (.cmdAcquire dc) := fun _ => cmd_accepts _ 2 dc (by decide)
theorem cmdRsvd (dc : BitVec 30) : Statement (.cmdRsvd dc) := fun _ => cmd_accepts _ 3 dc (by decide)
theorem wrCtrl (d : Word) : Statement (.wrCtrl d) := fun _ => head_accepts _ true 1 d (by decide)
theorem wrStatus (d : Word) : Statement (.wrStatus d) := fun _ => head_accepts _ true 2 d (by decide)
theorem wrData (d : Word) : Statement (.wrData d) := fun _ => head_accepts _ true 3 d (by decide)
theorem wrRsvd (addr : BitVec 3) (d : Word) : Statement (.wrRsvd addr d) := fun h => rsvd_accepts _ true addr d h (by decide)
theorem busIdle : Statement .busIdle := fun _ => by decide
theorem phaseIdle : Statement .phaseIdle := fun _ => by decide
theorem phasePowerup : Statement .phasePowerup := fun _ => by decide
theorem phaseStart : Statement .phaseStart := fun _ => by decide
theorem phaseWaitAckLo : Statement .phaseWaitAckLo := fun _ => by decide
theorem phaseWaitAckHi : Statement .phaseWaitAckHi := fun _ => by decide
theorem phaseWaitDataLo : Statement .phaseWaitDataLo := fun _ => by decide
theorem phaseWaitBitHi : Statement .phaseWaitBitHi := fun _ => by decide
theorem phaseWaitBitLo : Statement .phaseWaitBitLo := fun _ => by decide

end Sys2Proof.Laws.EncodesInItsRow
end

