-- ==== Sys2Proof/Laws/Step.lean ====
section
/-! SUPPORT. What a cycle can do, said once, as a function of the block's registers, the parameters and the inputs
(`nextBlock`); and the small lemmas of `step` and `run`. -/

namespace Sys2Proof.Machine

/-- The block's registers after SEQ, for `S_n = b`, from the registers HOST left. -/
def sequenced (c : Params) (b h : Block) : Block :=
  if b.busy then (if b.tick c then effect c b.phase.op h else h).advancePresc c b.presc
  else { h with presc := 0 }

/-- The block's registers after a cycle with inputs `p`. -/
def nextBlock (c : Params) (p : Pins) (b : Block) : Block :=
  if p.rst then Block.reset
  else (sequenced c b (effect c (decode p.slot) b)).synchronise p.dqI b.sync1

/-- The outputs of a cycle with inputs `p`. -/
def outputsOf (p : Pins) (b : Block) : Outputs :=
  { busRdata := readData b 0 (decode p.slot), irq := b.irq, dqOePin := b.dqOePin p.rst }

/-- Everything SEQ can do in a cycle. -/
theorem sequence_eq (b : Block) (s : State) : sequence b s = .next (s.setBlk (sequenced s.cfg b s.blk)) := by
  unfold sequence sequenced
  rw [decode_phase_code, exec_op_eq]
  cases hb : b.busy with
  | true => cases b.tick s.cfg <;> rfl
  | false => simp [(Block.busy_eq_false_iff b).mp hb, Phase.op, effect]

/-- Everything a cycle can do: with a sound configuration it answers a next state, given by `nextBlock` and
`outputsOf`, with one listed input used. -/
theorem step_eq {s : State} (h : s.cfg.wf = true) :
    step s = .next { cfg := s.cfg, blk := nextBlock s.cfg s.pins s.blk, inputs := s.inputs.tail,
                     cycle := s.cycle + 1, out := outputsOf s.pins s.blk } := by
  unfold step cycle
  simp only [h, if_true, cycleWith, exec_eq, andThen_next, sequence_eq]
  unfold nextBlock
  cases hr : s.pins.rst <;> simp [State.begin, outputsOf, State.setBlk, hr]

/-- A configuration that breaks R6 is refused. -/
theorem step_refused {s : State} (h : s.cfg.wf = false) : step s = .refused .invalidConfig := by
  simp [step, cycle, h]

/-- A step that answers a next state: the configuration is sound and the state is the one `step_eq` gives. -/
theorem step_next {s t : State} (h : step s = .next t) :
    s.cfg.wf = true ∧ t.cfg = s.cfg ∧ t.blk = nextBlock s.cfg s.pins s.blk ∧ t.inputs = s.inputs.tail ∧
      t.cycle = s.cycle + 1 ∧ t.out = outputsOf s.pins s.blk := by
  cases hc : s.cfg.wf with
  | false => rw [step_refused hc] at h; cases h
  | true =>
    rw [step_eq hc] at h
    cases h
    exact ⟨rfl, rfl, rfl, rfl, rfl, rfl⟩

/-- The listed inputs are used before free ones. -/
theorem State.pins_cons {s : State} {p : Pins} {ps : List Pins} (h : s.inputs = p :: ps) : s.pins = p := by
  simp [State.pins, h]

@[simp] theorem run_zero (s : State) : run 0 s = .next s := rfl

theorem run_succ (k : Nat) (s : State) : run (k + 1) s = andThen (step s) (run k) := rfl

/-- Runs compose. -/
theorem run_add (j k : Nat) (s : State) : run (j + k) s = andThen (run j s) (run k) := by
  induction j generalizing s with
  | zero => simp
  | succ j ih =>
    rw [Nat.succ_add, run_succ, run_succ]
    cases step s with
    | next t => simpa using ih t
    | fault r => rfl
    | refused r => rfl

theorem run_one (s : State) : run 1 s = step s := by
  rw [run_succ]
  cases step s <;> rfl

section
variable (M : Host.Core) (k : Nat) (s : M.State)

theorem coreRun_next (t : M.State) (h : M.step s = .next t) : M.run (k + 1) s = M.run k t := by
  simp [Host.Core.run, h]

theorem coreRun_fault (r : M.Fault) (h : M.step s = .fault r) : M.run (k + 1) s = .fault r := by
  simp [Host.Core.run, h]

theorem coreRun_refused (r : M.Refusal) (h : M.step s = .refused r) : M.run (k + 1) s = .refused r := by
  simp [Host.Core.run, h]

end

/-- `run` is the host's run of the machine. -/
theorem run_eq_core_run (k : Nat) (s : State) : Host.Core.run Sys2Proof.core k s = run k s := by
  induction k generalizing s with
  | zero => rfl
  | succ k ih =>
    rw [run_succ]
    cases h : step s with
    | next t => exact (coreRun_next Sys2Proof.core k s t h).trans (ih t)
    | fault r => exact coreRun_fault Sys2Proof.core k s r h
    | refused r => exact coreRun_refused Sys2Proof.core k s r h

/-- No run of a sound machine stops. -/
theorem run_total {s : State} (h : s.cfg.wf = true) (k : Nat) :
    ∃ t, run k s = .next t ∧ t.cfg = s.cfg ∧ t.inputs = s.inputs.drop k := by
  induction k generalizing s with
  | zero => exact ⟨s, rfl, rfl, rfl⟩
  | succ k ih =>
    rw [run_succ, step_eq h, andThen_next]
    obtain ⟨t, ht, hc, hi⟩ := ih (s := { cfg := s.cfg, blk := nextBlock s.cfg s.pins s.blk, inputs := s.inputs.tail,
                                         cycle := s.cycle + 1, out := outputsOf s.pins s.blk }) h
    exact ⟨t, ht, hc, by simpa using hi⟩

/-- What no inputs reset leaves for the next cycle. -/
theorem State.NoReset.head {s : State} {n : Nat} (h : s.NoReset (n + 1)) :
    ∃ p ps, s.inputs = p :: ps ∧ p.rst = false ∧ s.pins = p := by
  obtain ⟨hl, hr⟩ := h
  cases hs : s.inputs with
  | nil => simp [hs] at hl
  | cons p ps => exact ⟨p, ps, rfl, hr p (by simp [hs]), State.pins_cons hs⟩

theorem State.NoReset.tail {s t : State} {n : Nat} (h : s.NoReset (n + 1)) (ht : t.inputs = s.inputs.tail) :
    t.NoReset n := by
  obtain ⟨p, ps, hs, -, -⟩ := h.head
  obtain ⟨hl, hr⟩ := h
  rw [hs] at hl hr ht
  simp only [List.tail_cons] at ht
  refine ⟨by rw [ht]; simpa using hl, fun q hq => hr q ?_⟩
  rw [ht] at hq
  simp [hq]

theorem State.NoReset.mono {s : State} {m n : Nat} (h : s.NoReset n) (hm : m ≤ n) : s.NoReset m :=
  ⟨hm.trans h.1, fun p hp => h.2 p ((List.take_subset_take_left _ hm) hp)⟩

/-! ## The host's reading of DATA (R109, R110) -/

@[simp] theorem hostTemperature_setBlk (conv : TempSignConvention) (s : State) (b : Block) :
    hostTemperature conv (s.setBlk b) = conv b.temp / 10 := rfl

@[simp] theorem hostHumidity_setBlk (s : State) (b : Block) :
    hostHumidity (s.setBlk b) = (b.hum.toNat : Rat) / 10 := rfl

/-- R109's `temp / 10` is the reading without a sign or an offset. -/
theorem hostTemperature_unsigned (s : State) :
    hostTemperature TempSignConvention.unsigned s = (s.blk.temp.toNat : Rat) / 10 := rfl

end Sys2Proof.Machine
end

