-- ==== Sys2Proof/Tests/Slice0.lean ====
section
/-! SUPPORT. Tests: words and results from 95_test_vectors.md and hand calculation, one step each; ill-formed terms
that the checks refuse; and for every statement with hypotheses a witness that meets them together. -/

open Sys2Proof Sys2Proof.Machine

namespace Sys2Proof.Tests

/-! ## What the tests are built from -/

/-- The block's registers in a next state. -/
def blkOf : Answer → Option Block
  | .next s => some s.blk
  | _ => none

/-- What a read returned. -/
def rdataOf : Answer → Option Word
  | .next s => some s.out.busRdata
  | _ => none

/-- The parameters of the spec's programs: the defaults, four cycles to the tick, no power-up wait. -/
def defaults : Params := Params.withDefaults 4 0

/-- Small parameters: every budget 2, two cycles to the tick. -/
def small : Params := ⟨2, 2, 2, 2, 2, 2, 2, 2⟩

/-- Least parameters: everything 1. -/
def least : Params := ⟨1, 1, 1, 1, 1, 1, 1, 1⟩

/-- A machine in the given block state with the given coming inputs. -/
def mach (c : Params) (b : Block) (ps : List Pins) : State := { State.resetWith c with blk := b, inputs := ps }

/-- A cycle with the bus idle and the line high. -/
def quiet : Pins := Pins.idle true

/-- A cycle with a transaction and the line high. -/
def bus (t : Txn) : Pins := Pins.ofTxn true t

/-- The same cycle with reset. -/
def resetting (p : Pins) : Pins := { p with rst := true }

/-- Idle, after a good INIT: READY, RESULT 1, DATA 028C 015F (CK1). -/
def readyBlk : Block := { Block.reset with ready := true, result := 1, hum := 0x028C, temp := 0x015F }

/-- Busy in the given phase, with the given tick count and the level sampled. -/
def busyBlk (q : Phase) (cnt : Nat) (dqS : Bool) : Block := { Block.reset with phase := q, cnt := cnt, sync2 := dqS }

/-- `run` as a next state, for the tests. -/
def after (k : Nat) (s : State) : State :=
  match run k s with
  | .next t => t
  | _ => s

theorem after_eq {k : Nat} {s : State} (h : s.cfg.wf = true) : run k s = .next (after k s) := by
  obtain ⟨t, ht, -⟩ := run_total h k
  rw [after, ht]

/-! ## WellFormed refuses ill-formed terms (R57, R6) -/

theorem test_wf_refuses_rdRsvd_of_a_register : (Instr.rdRsvd 2 0).wf = false := by decide
theorem test_wf_refuses_wrRsvd_of_a_register : (Instr.wrRsvd 3 0).wf = false := by decide
theorem test_wf_accepts_reserved_words :
    (Instr.rdRsvd 4 0).wf = true ∧ (Instr.rdRsvd 7 0).wf = true ∧ (Instr.wrRsvd 4 0).wf = true := by decide
theorem test_wf_refuses_cyclesPerUs_0 : ({ small with cyclesPerUs := 0 } : Params).wf = false := by decide
theorem test_wf_refuses_startLowUs_0 : ({ small with startLowUs := 0 } : Params).wf = false := by decide
theorem test_wf_refuses_toAckLoUs_0 : ({ small with toAckLoUs := 0 } : Params).wf = false := by decide
theorem test_wf_refuses_toAckHiUs_0 : ({ small with toAckHiUs := 0 } : Params).wf = false := by decide
theorem test_wf_refuses_toDataLoUs_0 : ({ small with toDataLoUs := 0 } : Params).wf = false := by decide
theorem test_wf_refuses_toBitHiUs_0 : ({ small with toBitHiUs := 0 } : Params).wf = false := by decide
theorem test_wf_refuses_toBitLoUs_0 : ({ small with toBitLoUs := 0 } : Params).wf = false := by decide
theorem test_wf_accepts_params :
    defaults.wf = true ∧ least.wf = true ∧ ({ least with powerupUs := 0 } : Params).wf = true := by decide

/-- U3, U4: a broken configuration is refused, and not run. -/
theorem test_step_refuses_broken_config :
    step (mach { small with cyclesPerUs := 0 } Block.reset [quiet]) = .refused .invalidConfig :=
  step_refused (by decide)

/-! ## Decoding: a word of every constructor, written out from R53 to R59 (words of 95_test_vectors.md 2.1, 2.2) -/

theorem test_decode_rdCmd : decodeTableWord 40 0x000000000 = some (.rdCmd 0) := by decide
theorem test_decode_rdCtrl : decodeTableWord 40 0x100000000 = some (.rdCtrl 0) := by decide
theorem test_decode_rdStatus : decodeTableWord 40 0x200000000 = some (.rdStatus 0) := by decide
theorem test_decode_rdData : decodeTableWord 40 0x300000000 = some (.rdData 0) := by decide
theorem test_decode_rdRsvd_4 : decodeTableWord 40 0x400000000 = some (.rdRsvd 4 0) := by decide
theorem test_decode_rdRsvd_7 : decodeTableWord 40 0x700000000 = some (.rdRsvd 7 0) := by decide
theorem test_decode_cmdNop : decodeTableWord 40 0x800000000 = some (.cmdNop 0) := by decide
theorem test_decode_cmdInit : decodeTableWord 40 0x800000001 = some (.cmdInit 0) := by decide
theorem test_decode_cmdAcquire : decodeTableWord 40 0x800000002 = some (.cmdAcquire 0) := by decide
/-- C11: bits 31:2 of a command are ignored. -/
theorem test_decode_cmdAcquire_dirty : decodeTableWord 40 0x8FFFFFFFE = some (.cmdAcquire 0x3FFFFFFF) := by decide
theorem test_decode_cmdRsvd : decodeTableWord 40 0x800000003 = some (.cmdRsvd 0) := by decide
theorem test_decode_wrCtrl : decodeTableWord 40 0x9FFFFFFFF = some (.wrCtrl 0xFFFFFFFF) := by decide
theorem test_decode_wrStatus : decodeTableWord 40 0xAFFFFFFF5 = some (.wrStatus 0xFFFFFFF5) := by decide
theorem test_decode_wrData : decodeTableWord 40 0xB12345678 = some (.wrData 0x12345678) := by decide
theorem test_decode_wrRsvd_4 : decodeTableWord 40 0xC00000001 = some (.wrRsvd 4 1) := by decide
theorem test_decode_wrRsvd_7 : decodeTableWord 40 0xFFFFFFFFF = some (.wrRsvd 7 0xFFFFFFFF) := by decide
theorem test_decode_busIdle : decodeTableWord 0 0 = some .busIdle := by decide
theorem test_decode_phaseIdle : decodeTableWord 8 0 = some .phaseIdle := by decide
theorem test_decode_phasePowerup : decodeTableWord 8 1 = some .phasePowerup := by decide
theorem test_decode_phaseStart : decodeTableWord 8 2 = some .phaseStart := by decide
theorem test_decode_phaseWaitAckLo : decodeTableWord 8 3 = some .phaseWaitAckLo := by decide
theorem test_decode_phaseWaitAckHi : decodeTableWord 8 4 = some .phaseWaitAckHi := by decide
theorem test_decode_phaseWaitDataLo : decodeTableWord 8 5 = some .phaseWaitDataLo := by decide
theorem test_decode_phaseWaitBitHi : decodeTableWord 8 6 = some .phaseWaitBitHi := by decide
theorem test_decode_phaseWaitBitLo : decodeTableWord 8 7 = some .phaseWaitBitLo := by decide
/-- A word that is no transaction, and a code that is no phase, are rejected by name. -/
theorem test_decode_rejects :
    tableSlot 40 0x1000000000 = .error .noSuchTransaction ∧ tableSlot 8 8 = .error .noSuchPhase := by decide

/-- The encoder writes the same words (R53, R54). -/
theorem test_encode_words :
    encode (.cmdRsvd 0) = .bus 0x800000003 ∧ encode (.wrStatus 0xA) = .bus 0xA0000000A ∧
    encode (.rdRsvd 5 0) = .bus 0x500000000 := by decide

/-- `withFetchWord` puts the word on the port of the next cycle, or its phase at a tick. -/
theorem test_withFetchWord :
    (State.reset.withFetchWord 40 0x9FFFFFFFF).inputs = [bus 0x9FFFFFFFF] ∧
    ((State.reset.withFetchWord 8 3).blk.phase = .waitAckLo ∧
      (State.reset.withFetchWord 8 3).blk.tick State.reset.cfg = true) := by decide

/-! ## Reads and writes (95_test_vectors.md 2.1) -/

/-- H1, and its note: CMD stores nothing (R65). -/
theorem test_rdCmd : rdataOf (exec (.rdCmd 0) (mach defaults (busyBlk .start 0 true) [])) = some 0 := by decide
/-- H6: IE alone reads back. -/
theorem test_rdCtrl : rdataOf (exec (.rdCtrl 0) (mach defaults { Block.reset with ie := true } [])) = some 1 := by decide
/-- C6: BUSY, READY, RESULT 1 read 0x15; C12: BUSY clear, DONE, DROP, RESULT 2 read 0x2A. -/
theorem test_rdStatus :
    rdataOf (exec (.rdStatus 0) (mach defaults { readyBlk with phase := .start } [])) = some 0x15 ∧
    rdataOf (exec (.rdStatus 0) (mach defaults { Block.reset with done := true, drop := true, result := 2 } [])) =
      some 0x2A := by decide
/-- CK1: humidity above temperature. -/
theorem test_rdData : rdataOf (exec (.rdData 0) (mach defaults readyBlk [])) = some 0x028C015F := by decide
/-- H5. -/
theorem test_rdRsvd : rdataOf (exec (.rdRsvd 5 0) (mach defaults readyBlk [])) = some 0 := by decide
/-- H6, H7. -/
theorem test_wrCtrl :
    blkOf (exec (.wrCtrl 0xFFFFFFFF) (mach defaults Block.reset [])) = some { Block.reset with ie := true } ∧
    blkOf (exec (.wrCtrl 0xFFFFFFFE) (mach defaults { Block.reset with ie := true } [])) = some Block.reset := by decide
/-- H8, H9. -/
theorem test_wrStatus_each_bit :
    blkOf (exec (.wrStatus 2) (mach defaults { Block.reset with done := true, drop := true, result := 2 } [])) =
      some { Block.reset with drop := true, result := 2 } ∧
    blkOf (exec (.wrStatus 8) (mach defaults { Block.reset with done := true, drop := true } [])) =
      some { Block.reset with done := true } := by decide
/-- H10, H11. -/
theorem test_wrStatus_both_and_none :
    blkOf (exec (.wrStatus 0xA) (mach defaults { readyBlk with done := true, drop := true } [])) = some readyBlk ∧
    blkOf (exec (.wrStatus 0xFFFFFFF5) (mach defaults { readyBlk with done := true, drop := true } [])) =
      some { readyBlk with done := true, drop := true } := by decide
/-- H12. -/
theorem test_wrData : blkOf (exec (.wrData 0x12345678) (mach defaults readyBlk [])) = some readyBlk := by decide
/-- H13. -/
theorem test_wrRsvd : blkOf (exec (.wrRsvd 7 0xFFFFFFFF) (mach defaults readyBlk [])) = some readyBlk := by decide
/-- H14: a bus-idle cycle of a busy block lets the sequencer's cycle pass. -/
theorem test_busIdle_cycle :
    (blkOf (step (mach defaults (busyBlk .start 0 true) [quiet]))).map (·.presc) = some 1 := by decide

/-! ## Commands (95_test_vectors.md 2.2) -/

/-- C9, C10. -/
theorem test_cmdNop :
    blkOf (exec (.cmdNop 0) (mach defaults (busyBlk .start 0 true) [])) = some (busyBlk .start 0 true) ∧
    blkOf (exec (.cmdNop 0) (mach defaults { Block.reset with done := true } [])) =
      some { Block.reset with done := true } := by decide
/-- C4, C5. -/
theorem test_cmdInit :
    blkOf (exec (.cmdInit 0) (mach defaults Block.reset [])) =
      some { Block.reset with phase := .start, dqOe := true, isInit := true } ∧
    blkOf (exec (.cmdInit 0) (mach (Params.withDefaults 4 5) Block.reset [])) =
      some { Block.reset with phase := .powerup, isInit := true } := by decide
/-- C8. -/
theorem test_cmdInit_busy :
    blkOf (exec (.cmdInit 0) (mach defaults (busyBlk .waitBitHi 3 true) [])) =
      some { busyBlk .waitBitHi 3 true with drop := true } := by decide
/-- C1, C6. -/
theorem test_cmdAcquire :
    blkOf (exec (.cmdAcquire 0) (mach defaults { Block.reset with hum := 5 } [])) =
      some { Block.reset with done := true, result := 4 } ∧
    blkOf (exec (.cmdAcquire 0) (mach defaults { readyBlk with done := true, isInit := true, sr := 9 } [])) =
      some { readyBlk with phase := .start, dqOe := true } := by decide
/-- C3, C8. -/
theorem test_cmdRsvd :
    blkOf (exec (.cmdRsvd 0) (mach defaults readyBlk [])) = some { readyBlk with done := true, result := 5 } ∧
    blkOf (exec (.cmdRsvd 0) (mach defaults (busyBlk .start 0 true) [])) =
      some { busyBlk .start 0 true with drop := true } := by decide
/-- C12: the timeout of an INIT's last budgeted tick, with INIT written in the same cycle. -/
theorem test_finish_beside_command :
    blkOf (step (mach least { busyBlk .waitAckLo 0 true with isInit := true } [bus 0x800000001])) =
      some { Block.reset with isInit := true, done := true, result := 2, drop := true } := by decide

/-! ## The phases (R81 to R94; W1 to W10 of 95_test_vectors.md) -/

/-- R89: the prescaler is cleared, nothing else changes. -/
theorem test_phaseIdle :
    blkOf (exec .phaseIdle (mach defaults { readyBlk with presc := 3 } [])) = some readyBlk := by decide
/-- R81: the last tick of the wait drives the line; the one before counts. -/
theorem test_phasePowerup :
    blkOf (exec .phasePowerup (mach (Params.withDefaults 4 5) (busyBlk .powerup 4 true) [])) =
      some { busyBlk .start 0 true with dqOe := true } ∧
    blkOf (exec .phasePowerup (mach (Params.withDefaults 4 5) (busyBlk .powerup 3 true) [])) =
      some (busyBlk .powerup 4 true) := by decide
/-- R82: the 1000th tick releases the line. -/
theorem test_phaseStart :
    blkOf (exec .phaseStart (mach defaults { busyBlk .start 999 true with dqOe := true } [])) =
      some (busyBlk .waitAckLo 0 true) ∧
    blkOf (exec .phaseStart (mach defaults { busyBlk .start 998 true with dqOe := true } [])) =
      some { busyBlk .start 999 true with dqOe := true } := by decide
/-- W3: the level at the 40th tick succeeds. -/
theorem test_phaseWaitAckLo_boundary :
    blkOf (exec .phaseWaitAckLo (mach defaults (busyBlk .waitAckLo 39 false) [])) =
      some (busyBlk .waitAckHi 0 false) := by decide
/-- W2: no level at the 40th tick times out, and READY of an INIT goes. -/
theorem test_phaseWaitAckLo_timeout :
    blkOf (exec .phaseWaitAckLo (mach defaults { busyBlk .waitAckLo 39 true with isInit := true, ready := true, hum := 7 } [])) =
      some { Block.reset with isInit := true, done := true, result := 2 } := by decide
/-- W5, and R85's budget. -/
theorem test_phaseWaitAckHi :
    blkOf (exec .phaseWaitAckHi (mach defaults (busyBlk .waitAckHi 0 true) [])) =
      some (busyBlk .waitDataLo 0 true) ∧
    blkOf (exec .phaseWaitAckHi (mach defaults (busyBlk .waitAckHi 78 false) [])) =
      some (busyBlk .waitAckHi 79 false) := by decide
/-- R86: the data phase begins with bit 0. -/
theorem test_phaseWaitDataLo :
    blkOf (exec .phaseWaitDataLo (mach defaults (busyBlk .waitDataLo 79 false) [])) =
      some (busyBlk .waitBitHi 0 false) ∧
    (blkOf (exec .phaseWaitDataLo (mach defaults (busyBlk .waitDataLo 79 true) []))).map (·.result) = some 2 := by decide
/-- R93: high first sampled at tick 50; W8. -/
theorem test_phaseWaitBitHi :
    blkOf (exec .phaseWaitBitHi (mach defaults (busyBlk .waitBitHi 49 true) [])) =
      some { busyBlk .waitBitLo 0 true with lowDur := 50 } ∧
    (blkOf (exec .phaseWaitBitHi (mach defaults (busyBlk .waitBitHi 64 false) []))).map (·.result) = some 2 := by decide
/-- BV2 and BV3: 70 against 50 is a 1, 50 against 50 is a 0. -/
theorem test_phaseWaitBitLo_bits :
    blkOf (exec .phaseWaitBitLo (mach defaults { busyBlk .waitBitLo 69 false with lowDur := 50, sr := 5, bitidx := 3 } [])) =
      some { busyBlk .waitBitHi 0 false with lowDur := 50, sr := 11, bitidx := 4 } ∧
    blkOf (exec .phaseWaitBitLo (mach defaults { busyBlk .waitBitLo 49 false with lowDur := 50, sr := 5, bitidx := 3 } [])) =
      some { busyBlk .waitBitHi 0 false with lowDur := 50, sr := 10, bitidx := 4 } := by decide
/-- CK1, CM1: the 40th bit of the frame 02 8C 01 5F EE, in an INIT. -/
theorem test_phaseWaitBitLo_last_bit :
    blkOf (exec .phaseWaitBitLo
      (mach defaults { busyBlk .waitBitLo 25 false with lowDur := 50, sr := 0x014600AFF7, bitidx := 39, isInit := true } [])) =
      some { Block.reset with lowDur := 50, sr := 0x028C015FEE, bitidx := 40, isInit := true, sync2 := false, done := true,
                              ready := true, result := 1, hum := 0x028C, temp := 0x015F } := by decide
/-- CK2, CM3: the same with a wrong checksum, in an ACQUIRE. -/
theorem test_phaseWaitBitLo_mismatch :
    blkOf (exec .phaseWaitBitLo
      (mach defaults { busyBlk .waitBitLo 69 false with lowDur := 50, sr := 0x014600AFF7, bitidx := 39, ready := true } [])) =
      some { Block.reset with lowDur := 50, sr := 0x028C015FEF, bitidx := 40, sync2 := false, done := true, ready := true,
                              result := 3 } := by decide

/-! ## Comparator, shift, checksum (95_test_vectors.md 2.5 to 2.7) -/

/-- BV1, BV4 to BV9, BV12. -/
theorem test_bitval :
    bitval 26 50 = false ∧ bitval 1 1 = false ∧ bitval 2 1 = true ∧ bitval 63 64 = false ∧ bitval 75 65 = true ∧
    bitval 65 65 = false ∧ bitval 66 65 = true ∧ bitval 1 2 = false := by decide
/-- SH1, SH2. -/
theorem test_shiftIn :
    shiftIn (shiftIn (shiftIn 0 true) false) true = 5 ∧ shiftIn 0xFFFFFFFFFF false = 0xFFFFFFFFFE := by decide
/-- CK1 to CK4. -/
theorem test_checksum_flips :
    frameValid 0x028C015FEE = true ∧ frameValid 0x028C015FEF = false ∧ frameValid 0x028C015F6E = false ∧
    frameValid 0x038C015FEE = false := by decide
/-- CK6, CK7, CK11, CK12. -/
theorem test_checksum_wrap_and_swap :
    frameValid 0xFFFFFFFFFC = true ∧ frameValid 0xFFFFFFFFFB = false ∧ frameValid 0x020103040A = true ∧
    frameValid 0x01F400FAEF = true := by decide
/-- CK1 as the host reads it: 65.2 and 35.1 (R109). -/
theorem test_host_values :
    hostHumidity (mach defaults readyBlk []) = 652 / 10 ∧
    hostTemperature .unsigned (mach defaults readyBlk []) = 351 / 10 := by
  have h1 : (mach defaults readyBlk []).blk.hum.toNat = 652 := by decide
  have h2 : (mach defaults readyBlk []).blk.temp.toNat = 351 := by decide
  constructor
  · rw [hostHumidity, h1]; norm_num
  · rw [hostTemperature_unsigned, h2]; norm_num

/-- A host with another convention reads the same raw word otherwise (R110): here 35.1 as an offset of 40 units gives
-4.9. -/
theorem test_host_temperature_convention :
    hostTemperature (fun w => (w.toNat : Rat) - 400) (mach defaults readyBlk []) = -49 / 10 := by
  have h : (mach defaults readyBlk []).blk.temp.toNat = 351 := by decide
  rw [hostTemperature, h]
  norm_num

/-! ## Same-cycle priority and reset (95_test_vectors.md 2.8, 2.9) -/

/-- PR1, PR2: a W1C in the cycle of a finish: DONE stays set, DROP is cleared. -/
theorem test_finish_beside_w1c :
    blkOf (step (mach least { busyBlk .waitAckLo 0 true with drop := true } [bus 0xA0000000A])) =
      some { Block.reset with done := true, result := 2 } := by decide
/-- PR4: a read in the cycle of a finish returns the old STATUS (BUSY). -/
theorem test_finish_beside_read :
    rdataOf (step (mach least (busyBlk .waitAckLo 0 true) [bus 0x200000000])) = some 1 := by decide
/-- RS3, RS4: reset beside INIT, from a state with data. -/
theorem test_reset_beside_command :
    blkOf (step (mach defaults readyBlk [resetting (bus 0x800000001)])) = some Block.reset := by decide
/-- RS5: a read with reset returns `S_n`. -/
theorem test_reset_read :
    rdataOf (step (mach defaults readyBlk [resetting (bus 0x200000000)])) = some 0x14 := by decide

/-! ## Text of programs (R62, R63) -/

/-- Two lines with their cycle numbers, and the idle cycles between them. -/
theorem test_schedule :
    schedule 0 [(1, .wr 0 1), (3, .rd 2)] = [quiet, bus 0x800000001, quiet, bus 0x200000000] := by decide
/-- R63's expansions as words. -/
theorem test_pseudo :
    Pseudo.clrAll.expand.flatMap Asm.cycles = [bus 0xA0000000A] ∧
    Pseudo.irqOn.expand.flatMap Asm.cycles = [bus 0x900000001] := by decide
/-- A sample script (R63): low awaited, first seen at tick 3. -/
theorem test_seenAt : seenAt false 3 = [true, true, false] := by decide

/-! ## Witnesses: states and operands that meet the hypotheses of the statements, together, clause by clause -/

/-- Operands at the ends of the reserved range. -/
theorem witness_DecodeOfEncodeIsTheInstruction :
    (Instr.rdRsvd 4 5).wf = true ∧ (Instr.wrRsvd 7 5).wf = true ∧ (Instr.cmdInit 5).wf = true ∧
    Instr.phaseWaitBitLo.wf = true := by decide

/-- A word for each clause of the opcode map: word indices 0 to 4 and 7, OP 0 to 3. -/
theorem witness_OpcodeMapDecodesEveryWordToOneRow :
    (∀ a : BitVec 3, (mkTxn false a 9).getLsbD 35 = false ∧ (mkTxn false a 9).extractLsb' 32 3 = a ∧
      (mkTxn true a 9).getLsbD 35 = true ∧ (mkTxn true a 9).extractLsb' 32 3 = a) ∧
    (4 ≤ (4 : BitVec 3).toNat ∧ 4 ≤ (7 : BitVec 3).toNat) ∧
    (∀ o : BitVec 2, (mkCmd o 9).getLsbD 35 = true ∧ (mkCmd o 9).extractLsb' 32 3 = 0 ∧
      (mkCmd o 9).extractLsb' 0 2 = o) ∧
    quiet.busSel = false ∧ (bus 0).busSel = true := by decide

theorem witness_PhaseCodesAreTheEightOfTheTable :
    (busyBlk .start 0 true).phase ≠ .idle ∧ Phase.waitBitLo ≠ .idle := by decide

/-- An idle cycle with a command; a busy cycle between ticks; a busy cycle at a tick. -/
theorem witness_StepRunsTheDecodedInstruction :
    small.wf = true ∧ (bus 0x800000001).rst = false ∧ Block.reset.phase = .idle ∧
    ((busyBlk .start 0 true).phase ≠ .idle ∧ (busyBlk .start 0 true).presc ≠ small.cyclesPerUs - 1) ∧
    (({ busyBlk .start 0 true with presc := 1 } : Block).phase ≠ .idle ∧
      ({ busyBlk .start 0 true with presc := 1 } : Block).presc = small.cyclesPerUs - 1) ∧
    (∀ (i : Instr) (s : State), ∃ t, exec i s = .next t) :=
  ⟨by decide, by decide, by decide, by decide, by decide, exec_total⟩

/-- The least sound configuration, and one that breaks one bound. -/
theorem witness_StepIsTotalExactlyOnSoundConfigurations :
    (1 ≤ least.cyclesPerUs ∧ 1 ≤ least.startLowUs ∧ 1 ≤ least.toAckLoUs ∧ 1 ≤ least.toAckHiUs ∧
      1 ≤ least.toDataLoUs ∧ 1 ≤ least.toBitHiUs ∧ 1 ≤ least.toBitLoUs) ∧
    ¬ 1 ≤ ({ least with toBitLoUs := 0 } : Params).toBitLoUs := by decide

/-- What every statement over a cycle asks: a sound configuration and a listed cycle, with and without reset; here for
`BusRdataIsRegReadOfTheOldState`, with a read of each word and a write. -/
theorem witness_BusRdataIsRegReadOfTheOldState :
    (mach least readyBlk [bus 0x200000000]).cfg.wf = true ∧
    (mach least readyBlk [bus 0x200000000]).inputs = bus 0x200000000 :: [] ∧
    (∀ a : BitVec 3, (bus (mkTxn false a 0)).busSel = true ∧ (bus (mkTxn false a 0)).busWe = false ∧
      (bus (mkTxn false a 0)).busAddr = a) ∧
    (bus 0xA00000002).busWe = true ∧ quiet.busSel = false := by decide

/-- Data that agree in bits 1 and 3 only (H11). -/
theorem witness_StatusBitsStandWhereTheLayoutPutsThem :
    (0xFFFFFFF5 : Word).getLsbD 1 = (0 : Word).getLsbD 1 ∧ (0xFFFFFFF5 : Word).getLsbD 3 = (0 : Word).getLsbD 3 ∧
    (7 ≤ 7) := by decide

theorem witness_ReservedWordsReadZeroAndIgnoreWrites :
    ((bus 0x400000000).busSel = true ∧ 4 ≤ (bus 0x400000000).busAddr.toNat) ∧
    ((bus 0xFFFFFFFFF).busSel = true ∧ 4 ≤ (bus 0xFFFFFFFFF).busAddr.toNat) := by decide

theorem witness_CommandWhileBusyOnlySetsDrop : (mach small (busyBlk .powerup 0 true) []).blk.phase ≠ .idle := by decide

/-- INIT with a power-up wait of one tick and without one; ACQUIRE with READY. -/
theorem witness_AcceptedCommandStartsAnAcquisition :
    (mach least readyBlk []).blk.phase = .idle ∧ 0 < (mach least readyBlk []).cfg.powerupUs ∧
    (mach defaults readyBlk []).cfg.powerupUs = 0 ∧ (mach defaults readyBlk []).blk.ready = true := by decide

theorem witness_AcquireWithoutReadyFinishesNotReady :
    (mach least Block.reset []).blk.phase = .idle ∧ (mach least Block.reset []).blk.ready = false := by decide

theorem witness_ReservedCommandFinishesInvalidArg : (mach least readyBlk []).blk.phase = .idle := by decide

/-- The finish of an INIT's acquisition, and one of an ACQUIRE's. -/
theorem witness_FinishCommitsTheResult :
    ({ Block.reset with isInit := true } : Block).isInit = true ∧ Block.reset.isInit = false := by decide

/-- The last tick of each phase of fixed length, and the one before it. -/
theorem witness_PowerupAndStartCountTheirTicks :
    ((mach least (busyBlk .powerup 0 true) []).blk.cnt + 1 = least.powerupUs) ∧
    ((mach small (busyBlk .powerup 0 true) []).blk.cnt + 1 ≠ small.powerupUs) ∧
    ((mach defaults (busyBlk .start 999 true) []).blk.cnt + 1 = defaults.startLowUs) ∧
    ((mach defaults (busyBlk .start 998 true) []).blk.cnt + 1 ≠ defaults.startLowUs) := by decide

/-- Each wait with its level, at its last tick without it (the least timeout 1 among them), and before that tick. -/
theorem witness_AcknowledgeWaitsSucceedCountOrTimeOut :
    ((busyBlk .waitAckLo 0 false).sync2 = false ∧ (busyBlk .waitAckHi 0 true).sync2 = true) ∧
    ((busyBlk .waitAckLo 39 true).sync2 = true ∧ defaults.toAckLoUs ≤ (busyBlk .waitAckLo 39 true).cnt + 1) ∧
    ((busyBlk .waitAckLo 38 true).sync2 = true ∧ (busyBlk .waitAckLo 38 true).cnt + 1 < defaults.toAckLoUs) ∧
    ((busyBlk .waitAckHi 0 false).sync2 = false ∧ least.toAckHiUs ≤ (busyBlk .waitAckHi 0 false).cnt + 1) ∧
    ((busyBlk .waitAckHi 78 false).sync2 = false ∧ (busyBlk .waitAckHi 78 false).cnt + 1 < defaults.toAckHiUs) ∧
    ((busyBlk .waitDataLo 79 true).sync2 = true ∧ defaults.toDataLoUs ≤ (busyBlk .waitDataLo 79 true).cnt + 1) ∧
    ((busyBlk .waitDataLo 78 true).sync2 = true ∧ (busyBlk .waitDataLo 78 true).cnt + 1 < defaults.toDataLoUs) := by
  decide

theorem witness_BitHighWaitMeasuresTheLow :
    ((busyBlk .waitBitHi 49 true).sync2 = true) ∧
    ((busyBlk .waitBitHi 64 false).sync2 = false ∧ defaults.toBitHiUs ≤ (busyBlk .waitBitHi 64 false).cnt + 1) ∧
    ((busyBlk .waitBitHi 63 false).sync2 = false ∧ (busyBlk .waitBitHi 63 false).cnt + 1 < defaults.toBitHiUs) := by
  decide

/-- A bit before the last one, the 40th, the timeout, and the tick before it. -/
theorem witness_BitLowWaitDecidesTheBit :
    ((busyBlk .waitBitLo 69 false).sync2 = false ∧
      ({ busyBlk .waitBitLo 69 false with bitidx := 38 } : Block).bitidx + 1 ≠ 40 ∧
      ({ busyBlk .waitBitLo 69 false with bitidx := 39 } : Block).bitidx + 1 = 40) ∧
    ((busyBlk .waitBitLo 74 true).sync2 = true ∧ defaults.toBitLoUs ≤ (busyBlk .waitBitLo 74 true).cnt + 1) ∧
    ((busyBlk .waitBitLo 73 true).sync2 = true ∧ (busyBlk .waitBitLo 73 true).cnt + 1 < defaults.toBitLoUs) ∧
    ((5 : Frame).extractLsb' 0 39 ++ BitVec.ofBool (decide (70 > 50)) = (11 : Frame)) := by decide

/-- Each wait phase at its start, with a timeout of 1 (W6, W7) and of 2 with the level at its last tick. -/
theorem witness_WaitEndsAtTheFirstAwaitedSample :
    (∀ q ∈ [Phase.waitAckLo, .waitAckHi, .waitDataLo, .waitBitHi, .waitBitLo],
      (awaited q).isSome = true ∧ (mach least (busyBlk q 0 true) []).blk.phase = q ∧
      (mach least (busyBlk q 0 true) []).blk.cnt = 0 ∧ 1 ≤ least.ticksOf q ∧ 0 < least.ticksOf q ∧
      (1 ≤ 2 ∧ 2 ≤ small.ticksOf q)) := by decide

/-- A strictly increasing function (BV10). -/
theorem witness_ComparatorDependsOnOrderOnly : ∀ x y : Nat, x < y → 2 * x < 2 * y := by omega

theorem witness_ReceivedBitsFillTheBytesInOrder :
    (List.replicate 40 true).length = 40 ∧ 0 < (List.replicate 40 true).length ∧
    39 < (List.replicate 40 true).length := by decide

/-- Valid frames whose first and last bits are flipped (CK6). -/
theorem witness_ChecksumDetectsEverySingleBitFlip :
    frameValid 0xFFFFFFFFFC#40 = true ∧ (0 < 40 ∧ 39 < 40) := by decide

/-- The 40th bit of CK1's frame and of CK2's: a right fifth byte and a wrong one. -/
theorem witness_ChecksumRoundTripThroughTheFortiethBit :
    (∀ cnt ∈ [25, 69], ({ busyBlk .waitBitLo cnt false with lowDur := 50, sr := 0x014600AFF7, bitidx := 39 } : Block).bitidx
        = 39 ∧ (busyBlk .waitBitLo cnt false).sync2 = false) ∧
    (shiftIn 0x014600AFF7 (bitval (25 + 1) 50) = 0x02#8 ++ 0x8C#8 ++ 0x01#8 ++ 0x5F#8 ++ 0xEE#8) ∧
    (0xEE#8).toNat = ((0x02#8).toNat + (0x8C#8).toNat + (0x01#8).toNat + (0x5F#8).toNat) % 256 ∧
    (shiftIn 0x014600AFF7 (bitval (69 + 1) 50) = 0x02#8 ++ 0x8C#8 ++ 0x01#8 ++ 0x5F#8 ++ 0xEF#8) ∧
    (0xEF#8).toNat ≠ ((0x02#8).toNat + (0x8C#8).toNat + (0x01#8).toNat + (0x5F#8).toNat) % 256 := by decide

/-- A valid frame (CK1) and one that is not (CK2). -/
theorem witness_HostReadsTheRawWordUnderItsConvention :
    frameValid 0x028C015FEE = true ∧ frameValid 0x028C015FEF = false := by decide

/-- Durations at both ends of their ranges (BV4, BV7). -/
theorem witness_DurationsFit :
    DurationsFit defaults (List.replicate 39 (65, 75) ++ [(1, 1)]) :=
  ⟨by decide, by decide⟩

theorem witness_DataPhaseDecodesTheFrameOfItsDurations :
    ((busyBlk .waitBitHi 0 false).phase = .waitBitHi ∧ (busyBlk .waitBitHi 0 false).cnt = 0 ∧
      (busyBlk .waitBitHi 0 false).bitidx = 0 ∧ (busyBlk .waitBitHi 0 false).sr = 0) ∧
    DurationsFit least (List.replicate 40 (1, 1)) :=
  ⟨by decide, by decide, by decide⟩

/-- The durations of the spec's program P2: 20, 80 and 80 ticks. -/
theorem witness_WholeAcquisitionDecodesTheFrame :
    ((busyBlk .start 0 true).phase = .start ∧ (busyBlk .start 0 true).cnt = 0 ∧ (busyBlk .start 0 true).bitidx = 0 ∧
      (busyBlk .start 0 true).sr = 0) ∧
    ((List.replicate 1000 false).length = defaults.startLowUs ∧ 1 ≤ defaults.startLowUs) ∧
    ((1 ≤ 20 ∧ 20 ≤ defaults.toAckLoUs) ∧ (1 ≤ 80 ∧ 80 ≤ defaults.toAckHiUs) ∧ (1 ≤ 80 ∧ 80 ≤ defaults.toDataLoUs)) ∧
    DurationsFit defaults (List.replicate 17 (50, 70) ++ List.replicate 23 (50, 26)) :=
  ⟨by decide, ⟨List.length_replicate .., by decide⟩, by decide, by decide, by decide⟩

/-- Two ticks of two cycles each from the start of WAIT_ACK_HI, the line high: the first ends the wait, the second is one
of WAIT_DATA_LO. -/
def ackRun : State := mach small (busyBlk .waitAckHi 0 true) [quiet, quiet, quiet, quiet]

theorem witness_CyclesRefineSamplerTicks :
    (ackRun.cfg.wf = true ∧ ackRun.blk.phase ≠ .idle ∧ ackRun.blk.presc = 0) ∧
    ackRun.NoReset ([true, true].length * ackRun.cfg.cyclesPerUs) ∧
    (∀ p ∈ ackRun.inputs.take ([true, true].length * ackRun.cfg.cyclesPerUs), p.busSel = false) ∧
    (∀ (k : Nat) (hk : k < [true, true].length),
      ∃ u, run (k * ackRun.cfg.cyclesPerUs + (ackRun.cfg.cyclesPerUs - 1)) ackRun = .next u ∧
        u.blk.sync2 = [true, true][k]) ∧
    (∀ k, k < [true, true].length →
      ∃ u, sampleTicks ([true, true].take k) ackRun = .next u ∧ u.blk.phase ≠ .idle) := by
  refine ⟨by decide, ⟨by decide, by decide⟩, by decide, ?_, ?_⟩
  · intro k hk
    refine ⟨_, after_eq (by decide), ?_⟩
    have h : k = 0 ∨ k = 1 := by simp at hk; omega
    rcases h with rfl | rfl <;> rfl
  · intro k hk
    have h : k = 0 ∨ k = 1 := by simp at hk; omega
    rcases h with rfl | rfl
    · exact ⟨_, rfl, by decide⟩
    · exact ⟨_, rfl, by decide⟩

/-- The cycles of the statements over every cycle: reset or not, idle or busy, at a finish or not, with each kind of
transaction. -/
theorem witness_whole_cycle_hypotheses :
    small.wf = true ∧ quiet.rst = false ∧ (resetting quiet).rst = true ∧
    Block.reset.phase = .idle ∧ (busyBlk .waitAckLo 0 true).phase ≠ .idle ∧
    (busyBlk .waitAckLo 0 true).presc ≠ small.cyclesPerUs - 1 ∧
    (decode (bus 0x800000001).slot = .cmdInit 0 ∧ Block.reset.accepts (.cmdInit 0) = true ∧ isCommand (.cmdInit 0) = true) ∧
    (decode (bus 0x800000002).slot = .cmdAcquire 0 ∧ readyBlk.accepts (.cmdAcquire 0) = true ∧ readyBlk.ready = true) ∧
    (Block.reset.accepts (.cmdAcquire 0) = false ∧ Block.reset.ready = false ∧ isCommand (.cmdAcquire 0) = true) ∧
    (decode (bus 0x800000003).slot = .cmdRsvd 0 ∧ Block.reset.accepts (.cmdRsvd 0) = false ∧ isCommand (.cmdRsvd 0) = true) ∧
    (decode (bus 0xA0000000A).slot = .wrStatus 0xA ∧ isCommand (.wrStatus 0xA) = false) ∧
    (decode (bus 0x900000001).slot = .wrCtrl 1 ∧ isCommand (.wrCtrl 1) = false) ∧
    ((bus 0x200000000).busSel = true ∧ (bus 0x200000000).busWe = false) := by decide

/-- A finish in a cycle: with TIMEOUT (an INIT's), and with OK at the 40th bit. -/
theorem witness_finish_in_a_cycle :
    ((busyBlk .waitAckLo 0 true).phase ≠ .idle ∧
      (blkOf (step (mach least { busyBlk .waitAckLo 0 true with isInit := true } [quiet]))).map (fun b => (b.phase, b.result)) =
        some (.idle, 2)) ∧
    (blkOf (step (mach least { busyBlk .waitBitLo 0 false with bitidx := 39, lowDur := 1, sr := 0 } [quiet]))).map
        (fun b => (b.phase, b.result, b.bitidx)) = some (.idle, 1, 40) ∧
    (blkOf (step (mach least (busyBlk .waitAckLo 0 false) [quiet]))).map (·.phase) = some .waitAckHi := by decide

/-- An interrupt pending, in a cycle that keeps it, and IE rewritten with 1. -/
theorem witness_IrqIsALevelOfIeAndDone :
    ({ Block.reset with ie := true, done := true } : Block).irq = true ∧ quiet.rst = false ∧
    (blkOf (step (mach small { Block.reset with ie := true, done := true } [bus 0x900000001]))).map (·.done) = some true ∧
    (decode (bus 0x900000001).slot = .wrCtrl 1 ∧ (1 : Word).getLsbD 0 = true) := by decide

/-- Two host ports with the same line, in a busy cycle. -/
theorem witness_HostCannotDisturbABusySequencer :
    small.wf = true ∧ (busyBlk .start 0 true).phase ≠ .idle ∧ lineOf (bus 0x800000001) = lineOf quiet := by decide

/-- Two cycles of an operation beside two different hosts. -/
theorem witness_AcquisitionIsIndependentOfTheHost :
    SameSequencer (busyBlk .start 0 true) { busyBlk .start 0 true with ie := true, drop := true } ∧
    2 ≤ [quiet, quiet].length ∧ [bus 0x800000001, bus 0xA00000008].map lineOf = [quiet, quiet].map lineOf ∧
    (∀ m, m < 2 → ∃ u, run m (mach small (busyBlk .start 0 true) [quiet, quiet]) = .next u ∧ u.blk.phase ≠ .idle) := by
  refine ⟨rfl, by decide, by decide, ?_⟩
  intro m hm
  refine ⟨_, after_eq (by decide), ?_⟩
  have h : m = 0 ∨ m = 1 := by omega
  rcases h with rfl | rfl <;> decide

/-- The level at the very tick of the timeout, in every wait. -/
theorem witness_SimultaneousEventsMergeByPriority :
    ∀ q ∈ [Phase.waitAckLo, .waitAckHi, .waitDataLo, .waitBitHi, .waitBitLo], ∃ b : Block,
      awaited q = some b.sync2 ∧ b.cnt + 1 = least.ticksOf q := by
  intro q hq
  refine ⟨busyBlk q 0 ((awaited q).getD true), ?_⟩
  fin_cases hq <;> decide

/-- Safe states: reset, ready and idle, and in the start signal. -/
theorem witness_Safe :
    (State.resetWith least).Safe ∧ (mach least readyBlk [quiet]).Safe ∧
    (mach least { busyBlk .start 0 true with dqOe := true } [quiet]).Safe := by
  refine ⟨⟨by decide, ?_⟩, ⟨by decide, ?_⟩, ⟨by decide, ?_⟩⟩ <;> constructor <;> decide

/-- The next state of a safe one (`EveryStepKeepsTheInvariant`), and `LineIsDrivenOnlyInStart`'s cycle. -/
theorem witness_EveryStepKeepsTheInvariant :
    (State.resetWith least).Safe ∧ (∃ t, step (State.resetWith least) = .next t) ∧
    (mach least { busyBlk .start 0 true with dqOe := true } [quiet]).inputs = quiet :: [] :=
  ⟨witness_Safe.1, ⟨_, step_eq (by decide)⟩, rfl⟩

theorem witness_ResetMeetsTheInvariant : least.wf = true ∧ State.reset.cfg.wf = true := by decide

/-- A state no run reaches (result 7), with a reset cycle. -/
theorem witness_AfterOneResetEveryRunIsSafe :
    (mach small { Block.reset with result := 7, bitidx := 99 } [resetting quiet]).cfg.wf = true ∧
    (mach small { Block.reset with result := 7, bitidx := 99 } [resetting quiet]).inputs = resetting quiet :: [] ∧
    (resetting quiet).rst = true := by decide

/-- Reset held for two cycles; and an INIT in the first cycle after it. -/
theorem witness_ResetCycleOverridesEverything :
    [resetting quiet, bus 0x800000001] = resetting quiet :: [bus 0x800000001] ∧
    (bus 0x800000001).rst = false ∧ decode (bus 0x800000001).slot = .cmdInit 0 ∧
    (resetting (bus 0x200000000)).busSel = true ∧ (resetting (bus 0x200000000)).busWe = false := by decide

/-- An accepted INIT in a safe state, least parameters, the line high: cycle `a` and four more. -/
def initRun : State := mach least Block.reset [bus 0x800000001, quiet, quiet, quiet, quiet]

theorem initRun_accepts :
    initRun.Safe ∧ initRun.inputs = bus 0x800000001 :: [quiet, quiet, quiet, quiet] ∧
    initRun.blk.accepts (decode (bus 0x800000001).slot) = true ∧
    (true = true ↔ ∃ c, decode (bus 0x800000001).slot = .cmdInit c) :=
  ⟨⟨by decide, by constructor <;> decide⟩, rfl, by decide, fun _ => ⟨0, by decide⟩, fun _ => rfl⟩

/-- POWERUP and START of one tick: `n` is 2, and WAIT_ACK_LO is there in cycle a+3, at its first tick. -/
theorem witness_StartSignalLastsItsWindow :
    (1 + initRun.cfg.startLowUs) * initRun.cfg.cyclesPerUs = 2 ∧ initRun.NoReset 3 ∧
    (∀ m, 2 < m → m ≤ 3 → ∃ u, run m initRun = .next u ∧ u.blk.phase = .waitAckLo) := by
  refine ⟨by decide, ⟨by decide, by decide⟩, ?_⟩
  intro m h1 h2
  have h : m = 3 := by omega
  subst h
  exact ⟨_, after_eq (by decide), by decide⟩

/-- An accepted ACQUIRE: READY, and `init` false. -/
theorem witness_accepted_acquire :
    (mach least readyBlk [bus 0x800000002]).Safe ∧
    readyBlk.accepts (decode (bus 0x800000002).slot) = true ∧
    (false = true ↔ ∃ c, decode (bus 0x800000002).slot = .cmdInit c) := by
  refine ⟨⟨by decide, by constructor <;> decide⟩, by decide, ?_⟩
  have h : decode (bus 0x800000002).slot = .cmdAcquire 0 := by decide
  rw [h]
  simp

theorem witness_EveryBusyCycleShortensTheOperation :
    (mach least { busyBlk .start 0 true with dqOe := true } [quiet]).Safe ∧ quiet.rst = false ∧
    (busyBlk .start 0 true).phase ≠ .idle :=
  ⟨witness_Safe.2.2, by decide, by decide⟩

/-- The inputs of a whole bound of 85 ticks and the command's cycle. -/
theorem witness_EveryAcceptedCommandFinishesWithinTheBound :
    (mach least Block.reset (bus 0x800000001 :: List.replicate 85 quiet)).NoReset
      (1 + least.bound true * least.cyclesPerUs) :=
  ⟨by decide, by decide⟩

/-- The shortest TIMEOUT: three busy cycles, and the finish visible in the fourth. -/
theorem witness_NoAcquisitionFinishesBeforeItsLeastLatency :
    initRun.NoReset (1 + 3) ∧ (∀ m, 1 ≤ m → m ≤ 3 → ∃ u, run m initRun = .next u ∧ u.blk.phase ≠ .idle) ∧
    (∃ t, run (1 + 3) initRun = .next t ∧ t.blk.phase = .idle ∧ t.blk.result = 2) := by
  refine ⟨⟨by decide, by decide⟩, ?_, ⟨_, after_eq (by decide), by decide, by decide⟩⟩
  intro m h1 h2
  refine ⟨_, after_eq (by decide), ?_⟩
  have h : m = 1 ∨ m = 2 ∨ m = 3 := by omega
  rcases h with rfl | rfl | rfl <;> decide

/-- The inputs of the shortest OK, cycle by cycle (TM1 with the frame of CK5): INIT, then a line that alternates. -/
def shortestInput (m : Nat) : Pins := if m = 0 then bus 0x800000001 else Pins.idle (m % 2 == 0)

/-- The block in each of its cycles, by hand: POWERUP, START, three acknowledge waits, 40 bits of two ticks, OK. -/
def shortestBlk (m : Nat) : Block :=
  { Block.reset with
    phase := if m = 0 then .idle else if m = 1 then .powerup else if m = 2 then .start else if m = 3 then .waitAckLo
      else if m = 4 then .waitAckHi else if m = 5 then .waitDataLo else if m = 86 then .idle
      else if m % 2 = 0 then .waitBitHi else .waitBitLo
    lowDur := if m < 7 then 0 else 1, bitidx := (m - 6) / 2, isInit := decide (0 < m), dqOe := decide (m = 2)
    sync1 := decide (m = 0) || m % 2 == 1, sync2 := decide (m ≤ 1) || m % 2 == 0
    done := decide (m = 86), ready := decide (m = 86), result := if m = 86 then 1 else 0 }

theorem shortest_cycles : ∀ m < 86, nextBlock least (shortestInput m) (shortestBlk m) = shortestBlk (m + 1) := by decide

/-- An INIT with these inputs. -/
def shortestRun : State := mach least Block.reset ((List.range 86).map shortestInput)

theorem shortest_run : ∀ m ≤ 86, ∃ t, run m shortestRun = .next t ∧ t.cfg = least ∧ t.blk = shortestBlk m ∧
    t.inputs = ((List.range 86).map shortestInput).drop m
  | 0, _ => ⟨shortestRun, rfl, rfl, by decide, rfl⟩
  | m + 1, hm => by
    obtain ⟨t, ht, hc, hb, hi⟩ := shortest_run m (by omega)
    have hp : t.inputs = shortestInput m :: ((List.range 86).map shortestInput).drop (m + 1) := by
      rw [hi, List.drop_eq_getElem_cons (by simp; omega)]
      simp
    have hw : t.cfg.wf = true := by rw [hc]; decide
    have h : run (m + 1) shortestRun = step t := by rw [run_add, ht, andThen_next, run_one]
    refine ⟨_, h.trans (step_eq hw), hc, ?_, by simp only [hp, List.tail_cons]⟩
    simp only [State.pins_cons hp, hc, hb]
    exact shortest_cycles m (by omega)

/-- TM1: the shortest OK, 85 busy cycles: one tick of POWERUP, one of START, 83 waits of one tick. -/
theorem witness_shortest_OK :
    shortestRun.NoReset (1 + 85) ∧ (∀ m, 1 ≤ m → m ≤ 85 → ∃ u, run m shortestRun = .next u ∧ u.blk.phase ≠ .idle) ∧
    (∃ t, run (1 + 85) shortestRun = .next t ∧ t.blk.phase = .idle ∧ t.blk.result = 1) := by
  refine ⟨⟨by decide, by decide⟩, fun m h1 h2 => ?_, ?_⟩
  · obtain ⟨u, hu, -, hb, -⟩ := shortest_run m (by omega)
    have h : ∀ m < 86, 1 ≤ m → (shortestBlk m).phase ≠ .idle := by decide
    exact ⟨u, hu, by rw [hb]; exact h m (by omega) h1⟩
  · obtain ⟨t, ht, -, hb, -⟩ := shortest_run 86 (by omega)
    exact ⟨t, ht, by rw [hb]; decide, by rw [hb]; decide⟩

end Sys2Proof.Tests
end

section
/-! PROOFS. The scope (00_scope.md): a step is total on the configurations that meet R6 and refuses the others. -/

namespace Sys2Proof

/-- The check `Params.wf` says exactly R6's seven constraints. -/
theorem Params.wf_iff (c : Params) :
    c.wf = true ↔ 1 ≤ c.cyclesPerUs ∧ 1 ≤ c.startLowUs ∧ 1 ≤ c.toAckLoUs ∧ 1 ≤ c.toAckHiUs ∧
      1 ≤ c.toDataLoUs ∧ 1 ≤ c.toBitHiUs ∧ 1 ≤ c.toBitLoUs := by
  simp only [Params.wf, Bool.and_eq_true, decide_eq_true_eq, and_assoc]

namespace Machine

/-- Settles O7: `Params.wf` decides R6 (`Params.wf_iff`); where it holds `step_eq` gives the next state, and where it
fails `step_refused` gives the refusal. -/
theorem stepIsTotalExactlyOnSoundConfigurations : Obligations.StepIsTotalExactlyOnSoundConfigurations := by
  unfold Obligations.StepIsTotalExactlyOnSoundConfigurations
  intro s
  rw [← s.cfg.wf_iff]
  constructor
  · intro sound
    exact ⟨_, step_eq sound, rfl, rfl⟩
  · intro unsound
    exact step_refused (Bool.eq_false_of_not_eq_true unsound)

end Machine
end Sys2Proof
end

section
/-! PROOFS. The two parts of a cycle, said once in the terms of Safety.lean: what the host's transaction does to the
block (`Block.hostFlags`, `IdleHost`), what a tick does (`TickDoes`), and the four forms a cycle takes. -/

namespace Sys2Proof.Machine

/-! ## HOST -/

/-- IE after a host transaction (R70): WR_CTRL writes it, nothing else does. -/
def ieAfter : Instr → Bool → Bool
  | .wrCtrl d, _ => d.getLsbD 0
  | _, ie => ie

theorem ieAfter_of_ne_wrCtrl {i : Instr} (h : ∀ d, i ≠ .wrCtrl d) (ie : Bool) : ieAfter i ie = ie := by
  cases i with
  | wrCtrl d => exact absurd rfl (h d)
  | _ => rfl

/-- The host's three flags after a transaction that starts and finishes nothing (R70, R71, R74). -/
def Block.hostFlags (i : Instr) (b : Block) : Block :=
  { b with ie := ieAfter i b.ie, done := b.done && !w1cDone i, drop := isCommand i || (b.drop && !w1cDrop i) }

section
variable (i : Instr) (b : Block)

@[simp] theorem Block.hostFlags_phase : (b.hostFlags i).phase = b.phase := rfl
@[simp] theorem Block.hostFlags_ie : (b.hostFlags i).ie = ieAfter i b.ie := rfl
@[simp] theorem Block.hostFlags_done : (b.hostFlags i).done = (b.done && !w1cDone i) := rfl
@[simp] theorem Block.hostFlags_drop :
    (b.hostFlags i).drop = (isCommand i || (b.drop && !w1cDrop i)) := rfl
@[simp] theorem Block.hostFlags_busIdle : b.hostFlags .busIdle = b := by
  simp [hostFlags, ieAfter, isCommand, w1cDone, w1cDrop]

end

/-- A transaction that is no command, and every transaction while busy, writes the flags only (R46, R51, R74). -/
theorem effect_eq_hostFlags {c : Params} {i : Instr} {b : Block} (host : ∀ q : Phase, i ≠ q.op)
    (h : isCommand i = false ∨ b.busy = true) : effect c i b = b.hostFlags i := by
  cases i with
  | cmdInit _ | cmdAcquire _ | cmdRsvd _ =>
    have busy : b.busy = true := by simpa [isCommand] using h
    simp [effect, Block.command_busy busy, Block.hostFlags, ieAfter, isCommand, w1cDone]
  | phaseIdle => exact absurd rfl (host .idle)
  | phasePowerup => exact absurd rfl (host .powerup)
  | phaseStart => exact absurd rfl (host .start)
  | phaseWaitAckLo => exact absurd rfl (host .waitAckLo)
  | phaseWaitAckHi => exact absurd rfl (host .waitAckHi)
  | phaseWaitDataLo => exact absurd rfl (host .waitDataLo)
  | phaseWaitBitHi => exact absurd rfl (host .waitBitHi)
  | phaseWaitBitLo => exact absurd rfl (host .waitBitLo)
  | _ =>
    simp [effect, Block.hostFlags, ieAfter, isCommand, w1cDone, w1cDrop, ctrlIe, clearsDone, clearsDrop]

/-- What the transaction `i` makes of the idle block `b` (R74 to R80). -/
inductive IdleHost (c : Params) (b : Block) : Instr → Block → Prop
  /-- no command: the flags only -/
  | flags {i : Instr} (noCommand : isCommand i = false) : IdleHost c b i (b.hostFlags i)
  /-- INIT starts an acquisition (R76) -/
  | init (dc : BitVec 30) : IdleHost c b (.cmdInit dc) (b.startAcq c true)
  /-- ACQUIRE with READY starts one (R77) -/
  | acquire (dc : BitVec 30) (ready : b.ready = true) : IdleHost c b (.cmdAcquire dc) (b.startAcq c false)
  /-- ACQUIRE without READY ends at once (R77) -/
  | notReady (dc : BitVec 30) (unready : b.ready = false) :
      IdleHost c b (.cmdAcquire dc) (b.finish .notReady b.sr)
  /-- and so does the reserved command (R78) -/
  | reserved (dc : BitVec 30) : IdleHost c b (.cmdRsvd dc) (b.finish .invalidArg b.sr)

theorem idleHost_effect (c : Params) {i : Instr} {b : Block} (host : ∀ q : Phase, i ≠ q.op)
    (idle : b.phase = .idle) : IdleHost c b i (effect c i b) := by
  have hb : b.busy = false := (Block.busy_eq_false_iff b).mpr idle
  cases hi : isCommand i with
  | false => rw [effect_eq_hostFlags host (.inl hi)]; exact .flags hi
  | true =>
    cases i with
    | cmdInit dc => rw [effect, Block.command_idle hb]; exact .init dc
    | cmdAcquire dc =>
      rw [effect, Block.command_idle hb]
      cases hr : b.ready with
      | true => rw [Block.acquire_ready hr]; exact .acquire dc hr
      | false => rw [Block.acquire_notReady hr]; exact .notReady dc hr
    | cmdRsvd dc => rw [effect, Block.command_idle hb]; exact .reserved dc
    | _ => simp [isCommand] at hi

/-! ## SEQ -/

/-- The shift register at the end of a bit: the low of `low_dur` and the high just measured decide it (R94 to R96). -/
def Block.bitIn (b : Block) : Frame := shiftIn b.sr (bitval (b.cnt + 1) b.lowDur)

/-- What a tick makes of the busy block `b` (R81 to R102): it counts, goes on along the path, or finishes. -/
inductive TickDoes (c : Params) (b : Block) : Block → Prop
  /-- one more tick of the phase -/
  | counted (below : b.cnt + 1 ≠ c.ticksOf b.phase) : TickDoes c b { b with cnt := b.cnt + 1 }
  | powerupEnds (inPhase : b.phase = .powerup) (last : b.cnt + 1 = c.powerupUs) :
      TickDoes c b { b with cnt := 0, phase := .start, dqOe := true }
  | startEnds (inPhase : b.phase = .start) (last : b.cnt + 1 = c.startLowUs) :
      TickDoes c b { b with cnt := 0, phase := .waitAckLo, dqOe := false }
  | ackLoSeen (inPhase : b.phase = .waitAckLo) (low : b.sync2 = false) :
      TickDoes c b { b with cnt := 0, phase := .waitAckHi }
  | ackHiSeen (inPhase : b.phase = .waitAckHi) (high : b.sync2 = true) :
      TickDoes c b { b with cnt := 0, phase := .waitDataLo }
  | dataLoSeen (inPhase : b.phase = .waitDataLo) (low : b.sync2 = false) :
      TickDoes c b { b with cnt := 0, phase := .waitBitHi, bitidx := 0 }
  | bitRises (inPhase : b.phase = .waitBitHi) (high : b.sync2 = true) :
      TickDoes c b { b with cnt := 0, phase := .waitBitLo, lowDur := b.cnt + 1 }
  /-- a bit that is not the last -/
  | bitEnds (inPhase : b.phase = .waitBitLo) (low : b.sync2 = false) (more : b.bitidx + 1 ≠ 40) :
      TickDoes c b { b with cnt := 0, phase := .waitBitHi, sr := b.bitIn, bitidx := b.bitidx + 1 }
  /-- the 40th bit, with OK or CHECKSUM -/
  | frameEnds (res : Result) (verdict : res = if frameValid b.bitIn then .ok else .checksum)
      (inPhase : b.phase = .waitBitLo) (low : b.sync2 = false) (last : b.bitidx + 1 = 40) :
      TickDoes c b (Block.finish res b.bitIn { b with cnt := 0, sr := b.bitIn, bitidx := 40 })
  | timesOut (unseen : awaited b.phase = some !b.sync2) (spent : c.ticksOf b.phase ≤ b.cnt + 1) :
      TickDoes c b (b.finish .timeout b.sr)

/-- A tick of a wait phase: the level seen, which `onSeen` answers for; or a TIMEOUT; or a tick counted (R83). -/
theorem tickDoes_wait {c : Params} {b : Block} {q : Phase} {level : Bool} {onSeen : Nat → Block → Block}
    (inPhase : b.phase = q) (waits : awaited q = some level)
    (onTime : b.sync2 = level → TickDoes c b (onSeen (b.cnt + 1) { b with cnt := 0 })) :
    TickDoes c b (b.wait level (c.ticksOf q) onSeen) := by
  subst inPhase
  rcases Block.wait_cases level (c.ticksOf b.phase) onSeen b with
    ⟨seen, h⟩ | ⟨unseen, spent, h⟩ | ⟨-, below, h⟩ <;> rw [h]
  · exact onTime seen
  · exact .timesOut (by rw [waits, Bool.eq_not_of_ne (Ne.symm unseen)]) spent
  · exact .counted below.ne

/-- A tick of a phase of fixed length (R81, R82). -/
theorem tickDoes_count {c : Params} {b : Block} {q : Phase} {onEnd : Block → Block} (inPhase : b.phase = q)
    (ends : b.cnt + 1 = c.ticksOf q → TickDoes c b (onEnd { b with cnt := 0 })) :
    TickDoes c b (b.count (c.ticksOf q) onEnd) := by
  subst inPhase
  rcases Block.count_cases (c.ticksOf b.phase) onEnd b with ⟨last, h⟩ | ⟨below, h⟩ <;> rw [h]
  · exact ends last
  · exact .counted below

/-- The end of a bit's high (R94, R102). -/
theorem tickDoes_bitDone {c : Params} {b : Block} (inPhase : b.phase = .waitBitLo) (low : b.sync2 = false) :
    TickDoes c b (Block.bitDone (b.cnt + 1) { b with cnt := 0 }) := by
  rcases Block.bitDone_cases (b.cnt + 1) { b with cnt := 0 } with ⟨last, h⟩ | ⟨more, h⟩ <;> rw [h]
  · rcases Block.validate_cases b.bitIn { b with cnt := 0, sr := b.bitIn, bitidx := nbits } with
      ⟨valid, e⟩ | ⟨invalid, e⟩
    · exact e ▸ .frameEnds .ok (by simp [valid]) inPhase low last
    · exact e ▸ .frameEnds .checksum (by simp [invalid]) inPhase low last
  · exact .bitEnds inPhase low more

theorem tickDoes_effect (c : Params) {b : Block} (busy : b.phase ≠ .idle) :
    TickDoes c b (effect c b.phase.op b) := by
  cases inPhase : b.phase <;> simp only [Phase.op, effect]
  case idle => exact absurd inPhase busy
  case powerup =>
    refine tickDoes_count (q := .powerup) inPhase ?_
    exact .powerupEnds inPhase
  case start =>
    refine tickDoes_count (q := .start) inPhase ?_
    exact .startEnds inPhase
  case waitAckLo =>
    refine tickDoes_wait (q := .waitAckLo) inPhase rfl ?_
    exact .ackLoSeen inPhase
  case waitAckHi =>
    refine tickDoes_wait (q := .waitAckHi) inPhase rfl ?_
    exact .ackHiSeen inPhase
  case waitDataLo =>
    refine tickDoes_wait (q := .waitDataLo) inPhase rfl ?_
    exact .dataLoSeen inPhase
  case waitBitHi =>
    refine tickDoes_wait (q := .waitBitHi) inPhase rfl ?_
    exact .bitRises inPhase
  case waitBitLo =>
    refine tickDoes_wait (q := .waitBitLo) inPhase rfl ?_
    exact tickDoes_bitDone inPhase

theorem TickDoes.ie_eq {c : Params} {b t : Block} (h : TickDoes c b t) : t.ie = b.ie := by cases h <;> rfl

theorem TickDoes.drop_eq {c : Params} {b t : Block} (h : TickDoes c b t) : t.drop = b.drop := by cases h <;> rfl

/-! ## The forms of a cycle -/

section
variable {c : Params} {p : Pins} {b : Block}

theorem nextBlock_reset (c : Params) (b : Block) (rst : p.rst = true) : nextBlock c p b = Block.reset := by
  simp [nextBlock, rst]

/-- In an idle cycle the host acts alone, and the prescaler is held at 0 (R89). -/
theorem nextBlock_idle (c : Params) (rst : p.rst = false) (idle : b.phase = .idle) :
    ∃ h, IdleHost c b (decode p.slot) h ∧
      nextBlock c p b = ({ h with presc := 0 } : Block).synchronise p.dqI b.sync1 := by
  refine ⟨_, idleHost_effect c (decode_slot_ne_op p) idle, ?_⟩
  simp [nextBlock, sequenced, rst, (Block.busy_eq_false_iff b).mpr idle]

/-- A busy cycle that is no tick (R36, R88). -/
theorem nextBlock_between (rst : p.rst = false) (busy : b.phase ≠ .idle) (noTick : b.presc ≠ c.cyclesPerUs - 1) :
    nextBlock c p b = ((b.hostFlags (decode p.slot)).advancePresc c b.presc).synchronise p.dqI b.sync1 := by
  have hb : b.busy = true := b.busy_iff.mpr busy
  simp [nextBlock, sequenced, rst, hb, Block.tick, noTick, effect_eq_hostFlags (decode_slot_ne_op p) (.inr hb)]

/-- A tick cycle: the phase's operation on what the host left (R64, R88). -/
theorem nextBlock_tick (rst : p.rst = false) (busy : b.phase ≠ .idle) (tick : b.presc = c.cyclesPerUs - 1) :
    nextBlock c p b =
      ((effect c b.phase.op (b.hostFlags (decode p.slot))).advancePresc c b.presc).synchronise p.dqI b.sync1 := by
  have hb : b.busy = true := b.busy_iff.mpr busy
  have ht : b.tick c = true := (b.tick_iff c).mpr ⟨busy, tick⟩
  simp [nextBlock, sequenced, rst, hb, ht, effect_eq_hostFlags (decode_slot_ne_op p) (.inr hb)]

/-- Everything a busy cycle can do: the host's flags, and at a tick what the tick does to them. -/
theorem nextBlock_busy (c : Params) (rst : p.rst = false) (busy : b.phase ≠ .idle) :
    ∃ t, ((b.presc ≠ c.cyclesPerUs - 1 ∧ t = b.hostFlags (decode p.slot)) ∨
        (b.presc = c.cyclesPerUs - 1 ∧ TickDoes c (b.hostFlags (decode p.slot)) t)) ∧
      nextBlock c p b = (t.advancePresc c b.presc).synchronise p.dqI b.sync1 := by
  by_cases tick : b.presc = c.cyclesPerUs - 1
  · exact ⟨_, .inr ⟨tick, tickDoes_effect c (b := b.hostFlags _) busy⟩, nextBlock_tick rst busy tick⟩
  · exact ⟨_, .inl ⟨tick, rfl⟩, nextBlock_between rst busy tick⟩

end

/-- A cycle with a listed input, in terms of `nextBlock` and `outputsOf`. -/
theorem step_listed {s : State} {p : Pins} {rest : List Pins} (sound : s.cfg.wf = true)
    (listed : s.inputs = p :: rest) :
    ∃ t, step s = .next t ∧ t.blk = nextBlock s.cfg p s.blk ∧ t.out = outputsOf p s.blk := by
  refine ⟨_, step_eq sound, ?_, ?_⟩ <;> rw [State.pins_cons listed]

/-! ## How a busy cycle ends: the operation runs on, or it has finished -/

/-- After a busy cycle with the transaction `i` the operation still runs: what the host reads of it is as before. -/
structure StillRunning (i : Instr) (b t : Block) : Prop where
  busy : t.phase ≠ .idle
  path : t.phase ∈ successors b.phase
  done : t.done = (b.done && !w1cDone i)
  ready : t.ready = b.ready
  result : t.result = b.result
  hum : t.hum = b.hum
  temp : t.temp = b.temp

/-- A busy cycle has finished the acquisition with `res` (R102 to R108). -/
structure FinishedWith (res : Result) (b t : Block) : Prop where
  ends : endsAcquisition res = true
  waited : (awaited b.phase).isSome = true
  phase : t.phase = .idle
  done : t.done = true
  ready : t.ready = b.readyAfter res
  result : t.result = resultCode res
  hum : t.hum = b.humAfter res t.sr
  temp : t.temp = b.tempAfter res t.sr
  cause : res = .timeout ∨ (b.phase = .waitBitLo ∧ t.bitidx = 40)

theorem mem_successors_self (q : Phase) : q ∈ successors q := by cases q <;> decide

theorem TickDoes.runs_or_finished {c : Params} {i : Instr} {b t : Block} (h : TickDoes c (b.hostFlags i) t)
    (busy : b.phase ≠ .idle) (n : Nat) (v w : Bool) :
    StillRunning i b ((t.advancePresc c n).synchronise v w) ∨
      ∃ res, FinishedWith res b ((t.advancePresc c n).synchronise v w) := by
  cases h with
  | timesOut unseen _ =>
    exact .inr ⟨.timeout, rfl, Option.isSome_of_eq_some unseen, rfl, rfl, rfl, rfl, rfl, rfl, .inl rfl⟩
  | frameEnds res verdict inPhase _ _ =>
    refine .inr ⟨res, ?_, ?_, rfl, rfl, rfl, rfl, rfl, rfl, .inr ⟨inPhase, rfl⟩⟩
    · rw [verdict]; split <;> rfl
    · rw [show b.phase = .waitBitLo from inPhase]; rfl
  | counted below => exact .inl ⟨busy, mem_successors_self _, rfl, rfl, rfl, rfl, rfl⟩
  | powerupEnds inPhase _ | startEnds inPhase _ | ackLoSeen inPhase _ | ackHiSeen inPhase _ | dataLoSeen inPhase _
  | bitRises inPhase _ | bitEnds inPhase _ _ =>
    rw [Block.hostFlags_phase] at inPhase
    exact .inl ⟨by simp, by simp [inPhase, successors], rfl, rfl, rfl, rfl, rfl⟩

/-- A busy cycle leaves the operation running or finishes it. -/
theorem busyCycle_runs_or_finished (c : Params) {p : Pins} {b : Block} (rst : p.rst = false) (busy : b.phase ≠ .idle) :
    StillRunning (decode p.slot) b (nextBlock c p b) ∨ ∃ res, FinishedWith res b (nextBlock c p b) := by
  obtain ⟨t, ⟨-, rfl⟩ | ⟨-, tick⟩, e⟩ := nextBlock_busy c rst busy <;> rw [e]
  · exact .inl ⟨busy, mem_successors_self _, rfl, rfl, rfl, rfl, rfl⟩
  · exact tick.runs_or_finished busy _ _ _

theorem StillRunning.of_busy {c : Params} {p : Pins} {b : Block} (rst : p.rst = false) (busy : b.phase ≠ .idle)
    (busy' : (nextBlock c p b).phase ≠ .idle) : StillRunning (decode p.slot) b (nextBlock c p b) := by
  rcases busyCycle_runs_or_finished c rst busy with runs | ⟨res, finished⟩
  · exact runs
  · exact absurd finished.phase busy'

theorem FinishedWith.of_idle {c : Params} {p : Pins} {b : Block} (rst : p.rst = false) (busy : b.phase ≠ .idle)
    (idle' : (nextBlock c p b).phase = .idle) : ∃ res, FinishedWith res b (nextBlock c p b) := by
  rcases busyCycle_runs_or_finished c rst busy with runs | finished
  · exact absurd idle' runs.busy
  · exact finished

theorem FinishedWith.result_cases {res : Result} {b t : Block} (h : FinishedWith res b t) :
    t.result = 1 ∨ t.result = 2 ∨ t.result = 3 := by
  have ends := h.ends
  rw [h.result]
  cases res <;> simp_all [endsAcquisition, resultCode]

theorem FinishedWith.result_eq_one {res : Result} {b t : Block} (h : FinishedWith res b t) :
    t.result = 1 ↔ res = .ok := by
  rw [h.result]
  cases res <;> decide

theorem FinishedWith.data_of_not_ok {res : Result} {b t : Block} (h : FinishedWith res b t) (failed : res ≠ .ok) :
    t.hum = 0 ∧ t.temp = 0 := by
  have ends := h.ends
  rw [h.hum, h.temp]
  cases res <;> simp_all [endsAcquisition, Block.humAfter, Block.tempAfter]

end Sys2Proof.Machine
end

section
/-! PROOFS. The invariant `Block.Inv` (10_state.md): the reset state meets it, and each thing a cycle can do keeps it:
the host's transaction, a cycle between ticks, and a tick. -/

namespace Sys2Proof

/-- Every budget that R6 constrains is positive: all but POWERUP's, and IDLE has none. -/
theorem Params.ticksOf_pos {c : Params} (sound : c.wf = true) {q : Phase} (idle : q ≠ .idle)
    (powerup : q ≠ .powerup) : 0 < c.ticksOf q := by
  obtain ⟨-, start, ackLo, ackHi, dataLo, bitHi, bitLo⟩ := c.wf_iff.mp sound
  cases q with
  | idle => exact absurd rfl idle
  | powerup => exact absurd rfl powerup
  | start => exact start
  | waitAckLo => exact ackLo
  | waitAckHi => exact ackHi
  | waitDataLo => exact dataLo
  | waitBitHi => exact bitHi
  | waitBitLo => exact bitLo

theorem Params.cyclesPerUs_pos {c : Params} (sound : c.wf = true) : 0 < c.cyclesPerUs := (c.wf_iff.mp sound).1

namespace Machine

section
variable {c : Params} {b t : Block}

theorem Block.inv_reset (sound : c.wf = true) : Block.reset.Inv c where
  presc_lt := Params.cyclesPerUs_pos sound
  idle_presc _ := rfl
  idle_cnt _ := rfl
  cnt_lt busy := absurd rfl busy
  dqOe_start := by decide
  lowDur_le := Nat.zero_le _
  lowDur_pos := nofun
  bitidx_le := by decide
  bitidx_busy busy := absurd rfl busy
  bitidx_before busy := absurd rfl busy
  sr_lt := by decide
  powerup_init := nofun
  busy_done busy := absurd rfl busy
  result_le := by decide
  failed_data _ := ⟨rfl, rfl⟩
  ready_result := nofun

/-- The prescaler may stand anywhere in its range while busy, and at 0 while idle (R33). -/
theorem Block.Inv.withPresc (inv : b.Inv c) {n : Nat} (below : n < c.cyclesPerUs) (held : b.phase = .idle → n = 0) :
    ({ b with presc := n } : Block).Inv c :=
  { inv with presc_lt := below, idle_presc := held }

/-- The synchroniser is free of the invariant. -/
theorem Block.Inv.synchronise (inv : b.Inv c) (v w : Bool) : (b.synchronise v w).Inv c := { inv with }

/-- The host's flags keep it: a host can clear DONE but not set it. -/
theorem Block.Inv.hostFlags (inv : b.Inv c) (i : Instr) : (b.hostFlags i).Inv c :=
  { inv with busy_done := fun busy => by simp [inv.busy_done busy] }

/-- A finish gives one of the codes 1 to 5 (R58). -/
theorem resultCode_range (res : Result) : resultCode res ≠ 0 ∧ (resultCode res).toNat ≤ 5 := by cases res <;> decide

/-- A finish meets it, whatever ended: only the registers that `finish` keeps have to be in range (R106, R107). -/
theorem Block.inv_finish (sound : c.wf = true) {g : Block} (lowDur : g.lowDur ≤ c.toBitHiUs) (bitidx : g.bitidx ≤ 40)
    (sr : g.sr.toNat < 2 ^ g.bitidx) (res : Result) (f : Frame) :
    ({ g.finish res f with presc := 0 } : Block).Inv c where
  presc_lt := Params.cyclesPerUs_pos sound
  idle_presc _ := rfl
  idle_cnt _ := rfl
  cnt_lt busy := absurd rfl busy
  dqOe_start := by simp
  lowDur_le := lowDur
  lowDur_pos := nofun
  bitidx_le := bitidx
  bitidx_busy busy := absurd rfl busy
  bitidx_before busy := absurd rfl busy
  sr_lt := sr
  powerup_init := nofun
  busy_done busy := absurd rfl busy
  result_le := (resultCode_range res).2
  failed_data failed := by
    cases res <;> simp_all [resultCode, humAfter, tempAfter]
  ready_result _ := (resultCode_range res).1

/-- Entering the busy phase `q` with a cleared counter meets it, if `low_dur`, the bits received and the line's drive
are those of `q`. -/
theorem Block.Inv.enter (inv : b.Inv c) (sound : c.wf = true) (undone : b.done = false) {q : Phase} {oe : Bool}
    {l k : Nat} {f : Frame} (budget : 0 < c.ticksOf q) (drives : oe = true ↔ q = .start)
    (lowDur : l ≤ c.toBitHiUs) (measured : q = .waitBitLo → 1 ≤ l) (bits : k < 40)
    (before : inBit q = false → k = 0) (sr : f.toNat < 2 ^ k) (init : q = .powerup → b.isInit = true) :
    ({ b with phase := q, presc := 0, cnt := 0, lowDur := l, bitidx := k, sr := f, dqOe := oe } : Block).Inv c :=
  { inv with
    presc_lt := Params.cyclesPerUs_pos sound
    idle_presc := fun _ => rfl
    idle_cnt := fun _ => rfl
    cnt_lt := fun _ => budget
    dqOe_start := drives
    lowDur_le := lowDur
    lowDur_pos := measured
    bitidx_le := bits.le
    bitidx_busy := fun _ => bits
    bitidx_before := fun _ => before
    sr_lt := sr
    powerup_init := init
    busy_done := fun _ => undone }

/-- The acquisition start keeps it (R79). -/
theorem Block.Inv.startAcq (inv : b.Inv c) (sound : c.wf = true) (idle : b.phase = .idle) (init : Bool) :
    ({ b.startAcq c init with presc := 0 } : Block).Inv c := by
  have cleared : ({ b with done := false, isInit := init } : Block).Inv c :=
    { inv with busy_done := fun _ => rfl, powerup_init := fun h => by simp [idle] at h }
  cases h : powersUp c init with
  | true =>
    obtain ⟨isInit, wait⟩ : init = true ∧ 0 < c.powerupUs := by simpa [powersUp] using h
    have := cleared.enter sound rfl (q := .powerup) (oe := false) (l := 0) (k := 0) (f := 0) wait (by simp)
      (Nat.zero_le _) nofun (by decide) (fun _ => rfl) (by decide) (fun _ => isInit)
    simpa [Block.startAcq, h] using this
  | false =>
    have := cleared.enter sound rfl (q := .start) (oe := true) (l := 0) (k := 0) (f := 0)
      (Params.ticksOf_pos sound nofun nofun) (by simp) (Nat.zero_le _) nofun (by decide) (fun _ => rfl)
      (by decide) nofun
    simpa [Block.startAcq, h] using this

/-- A transaction in an idle cycle keeps it (R74 to R80). -/
theorem IdleHost.inv {i : Instr} (h : IdleHost c b i t) (inv : b.Inv c) (sound : c.wf = true) (idle : b.phase = .idle) :
    ({ t with presc := 0 } : Block).Inv c := by
  cases h with
  | flags _ => exact (inv.hostFlags i).withPresc (Params.cyclesPerUs_pos sound) fun _ => rfl
  | init _ => exact inv.startAcq sound idle true
  | acquire _ _ => exact inv.startAcq sound idle false
  | notReady _ _ => exact Block.inv_finish sound inv.lowDur_le inv.bitidx_le inv.sr_lt _ _
  | reserved _ => exact Block.inv_finish sound inv.lowDur_le inv.bitidx_le inv.sr_lt _ _

/-- One more bit shifted in fits in one more bit (R96). -/
theorem shiftIn_toNat_lt {f : Frame} {k : Nat} (h : f.toNat < 2 ^ k) (v : Bool) :
    (shiftIn f v).toNat < 2 ^ (k + 1) := by
  have hv : v.toNat ≤ 1 := Bool.toNat_le v
  rw [shiftIn_toNat, Nat.pow_succ]
  exact lt_of_le_of_lt (Nat.mod_le _ _) (by omega)

/-- A tick keeps it (R81 to R102). -/
theorem TickDoes.inv (h : TickDoes c b t) (inv : b.Inv c) (sound : c.wf = true) (busy : b.phase ≠ .idle) :
    ({ t with presc := 0 } : Block).Inv c := by
  have undone := inv.busy_done busy
  have bits := inv.bitidx_busy busy
  have none : inBit b.phase = false → b.bitidx = 0 := inv.bitidx_before busy
  have undriven : b.phase ≠ .start → b.dqOe = false := fun h => by simpa [h] using inv.dqOe_start
  cases h with
  | counted below =>
    have room : b.cnt + 1 < c.ticksOf b.phase := lt_of_le_of_ne (inv.cnt_lt busy) below
    exact { inv.withPresc (Params.cyclesPerUs_pos sound) fun _ => rfl with
      idle_cnt := fun idle => absurd idle busy, cnt_lt := fun _ => room }
  | powerupEnds inPhase _ | startEnds inPhase _ =>
    exact inv.enter sound undone (Params.ticksOf_pos sound nofun nofun) (by simp) inv.lowDur_le nofun bits
      (fun _ => none (by simp [inPhase, inBit])) inv.sr_lt nofun
  | ackLoSeen inPhase _ | ackHiSeen inPhase _ =>
    exact inv.enter sound undone (Params.ticksOf_pos sound nofun nofun) (by simp [undriven, inPhase])
      inv.lowDur_le nofun bits (fun _ => none (by simp [inPhase, inBit])) inv.sr_lt nofun
  | dataLoSeen inPhase _ =>
    have cleared : b.sr.toNat < 2 ^ 0 := none (by simp [inPhase, inBit]) ▸ inv.sr_lt
    exact inv.enter sound undone (Params.ticksOf_pos sound nofun nofun) (by simp [undriven, inPhase])
      inv.lowDur_le nofun (Nat.succ_pos 39) (fun _ => rfl) cleared nofun
  | bitRises inPhase _ =>
    have room : b.cnt < c.toBitHiUs := by simpa [inPhase, Params.ticksOf] using inv.cnt_lt busy
    exact inv.enter sound undone (Params.ticksOf_pos sound nofun nofun) (by simp [undriven, inPhase])
      room (fun _ => Nat.succ_pos _) bits nofun inv.sr_lt nofun
  | bitEnds inPhase _ more =>
    have room : b.bitidx + 1 < 40 := lt_of_le_of_ne bits more
    exact inv.enter sound undone (Params.ticksOf_pos sound nofun nofun) (by simp [undriven, inPhase])
      inv.lowDur_le nofun room nofun (shiftIn_toNat_lt inv.sr_lt _) nofun
  | frameEnds res _ _ _ _ =>
    exact Block.inv_finish sound (g := { b with cnt := 0, sr := b.bitIn, bitidx := 40 }) inv.lowDur_le le_rfl
      b.bitIn.isLt _ _
  | timesOut _ _ => exact Block.inv_finish sound inv.lowDur_le inv.bitidx_le inv.sr_lt _ _

/-- Every cycle keeps it: reset, idle, between ticks, tick. -/
theorem Block.Inv.nextBlock (inv : b.Inv c) (sound : c.wf = true) (p : Pins) : (nextBlock c p b).Inv c := by
  cases rst : p.rst with
  | true => rw [nextBlock_reset c b rst]; exact inv_reset sound
  | false =>
    by_cases idle : b.phase = .idle
    · obtain ⟨t, host, e⟩ := nextBlock_idle c rst idle
      rw [e]
      exact (host.inv inv sound idle).synchronise _ _
    · have flags := inv.hostFlags (decode p.slot)
      obtain ⟨t, ⟨-, rfl⟩ | ⟨last, tick⟩, e⟩ := nextBlock_busy c rst idle <;> rw [e]
      · exact (flags.withPresc (Nat.mod_lt _ (Params.cyclesPerUs_pos sound)) fun h => absurd h idle).synchronise _ _
      · have wraps : (b.presc + 1) % c.cyclesPerUs = 0 := by
          rw [last, Nat.sub_add_cancel (Params.cyclesPerUs_pos sound), Nat.mod_self]
        rw [Block.advancePresc, wraps]
        exact (tick.inv flags sound idle).synchronise _ _

end

/-- Settles O51: a step is `nextBlock` (`step_next`), and `Block.Inv.nextBlock` shows the invariant for each form a
cycle takes. -/
theorem everyStepKeepsTheInvariant : Obligations.EveryStepKeepsTheInvariant := by
  unfold Obligations.EveryStepKeepsTheInvariant
  intro s t safe h
  obtain ⟨sound, cfg, blk, -, -, -⟩ := step_next h
  refine ⟨cfg ▸ sound, ?_⟩
  rw [cfg, blk]
  exact safe.blk.nextBlock sound _

/-- Settles O52: `Block.inv_reset`, also for the configuration that `State.reset` carries. -/
theorem resetMeetsTheInvariant : Obligations.ResetMeetsTheInvariant := by
  have safe : ∀ c : Params, c.wf = true → (State.resetWith c).Safe := fun c sound => ⟨sound, Block.inv_reset sound⟩
  exact ⟨safe, safe Params.chosen (by decide)⟩

end Machine
end Sys2Proof
end

section
/-! PROOFS. Each register over every cycle (10_state.md, section by section): what reset, the host's transaction in an
idle cycle, and the two ends of a busy cycle (`StillRunning`, `FinishedWith`) make of it. -/

namespace Sys2Proof.Machine

/-! ## What an accepted command is, and what a transaction leaves of an idle block -/

theorem isCommand_of_accepts {b : Block} {i : Instr} (h : b.accepts i = true) : isCommand i = true := by
  cases i <;> simp_all [Block.accepts, isCommand]

section
variable {c : Params} {b t : Block} {i : Instr}

theorem IdleHost.ie_eq (h : IdleHost c b i t) : t.ie = ieAfter i b.ie := by cases h <;> rfl

theorem IdleHost.drop_eq (h : IdleHost c b i t) : t.drop = (b.drop && !w1cDrop i) := by
  cases h with
  | flags noCommand => simp [noCommand]
  | _ => simp [w1cDrop]

theorem IdleHost.ready_eq (h : IdleHost c b i t) : t.ready = b.ready := by cases h <;> rfl

/-- A command that is not accepted is an immediate finish, NOT_READY or INVALID_ARG. -/
theorem IdleHost.done_eq (h : IdleHost c b i t) (idle : b.phase = .idle) :
    t.done = if isCommand i then !b.accepts i else b.done && !w1cDone i := by
  have hb : b.busy = false := b.busy_eq_false_iff.mpr idle
  cases h with
  | flags noCommand => simp [noCommand]
  | init _ | reserved _ => simp [isCommand, Block.accepts, hb]
  | acquire _ ready => simp [isCommand, Block.accepts, hb, ready]
  | notReady _ unready => simp [isCommand, Block.accepts, unready]

/-- The phases an idle block can be left in, and by what (R17, R76, R77). -/
theorem IdleHost.phase_cases (h : IdleHost c b i t) (idle : b.phase = .idle) :
    t.phase = .idle ∨
      (b.accepts i = true ∧ (t.phase = .start ∨
        (t.phase = .powerup ∧ 0 < c.powerupUs ∧ ∃ dc, i = .cmdInit dc))) := by
  have hb : b.busy = false := b.busy_eq_false_iff.mpr idle
  cases h with
  | flags _ => exact .inl idle
  | notReady _ _ | reserved _ => exact .inl rfl
  | init dc =>
    refine .inr ⟨by simp [Block.accepts, hb], ?_⟩
    by_cases wait : 0 < c.powerupUs
    · exact .inr ⟨by simp [powersUp, wait], wait, dc, rfl⟩
    · exact .inl (by simp [powersUp, wait])
  | acquire _ ready => exact .inr ⟨by simp [Block.accepts, hb, ready], .inl rfl⟩

theorem IdleHost.of_unready {dc : BitVec 30} (h : IdleHost c b (.cmdAcquire dc) t) (unready : b.ready = false) :
    t = b.finish .notReady b.sr := by
  cases h with
  | flags noCommand => simp [isCommand] at noCommand
  | acquire _ ready => simp [unready] at ready
  | notReady _ _ => rfl

theorem IdleHost.of_reserved {dc : BitVec 30} (h : IdleHost c b (.cmdRsvd dc) t) :
    t = b.finish .invalidArg b.sr := by
  cases h with
  | flags noCommand => simp [isCommand] at noCommand
  | reserved _ => rfl

/-- What is no command, and what is accepted, keeps RESULT (R24). -/
theorem IdleHost.result_eq (h : IdleHost c b i t) (keeps : isCommand i = false ∨ b.accepts i = true) :
    t.result = b.result := by
  cases h with
  | flags _ | init _ | acquire _ _ => rfl
  | notReady _ unready => simp [isCommand, Block.accepts, unready] at keeps
  | reserved _ => simp [isCommand, Block.accepts] at keeps

/-- All but ACQUIRE without READY keep DATA (R26, R107). -/
theorem IdleHost.data_eq (h : IdleHost c b i t) (keeps : b.ready = true ∨ ∀ dc, i ≠ .cmdAcquire dc) :
    t.hum = b.hum ∧ t.temp = b.temp := by
  cases h with
  | flags _ | init _ | acquire _ _ | reserved _ => exact ⟨rfl, rfl⟩
  | notReady dc unready => simp [unready] at keeps

end

/-! ## The host's flags IE and DROP over every cycle -/

section
variable {c : Params} {p : Pins} {b : Block}

theorem nextBlock_ie (c : Params) (b : Block) (rst : p.rst = false) :
    (nextBlock c p b).ie = ieAfter (decode p.slot) b.ie := by
  by_cases idle : b.phase = .idle
  · obtain ⟨h, host, e⟩ := nextBlock_idle c rst idle
    rw [e]; exact host.ie_eq
  · obtain ⟨t, ⟨-, rfl⟩ | ⟨-, tick⟩, e⟩ := nextBlock_busy c rst idle <;> rw [e]
    · rfl
    · exact tick.ie_eq

theorem nextBlock_drop_idle (c : Params) (rst : p.rst = false) (idle : b.phase = .idle) :
    (nextBlock c p b).drop = (b.drop && !w1cDrop (decode p.slot)) := by
  obtain ⟨h, host, e⟩ := nextBlock_idle c rst idle
  rw [e]; exact host.drop_eq

theorem nextBlock_drop_busy (c : Params) (rst : p.rst = false) (busy : b.phase ≠ .idle) :
    (nextBlock c p b).drop = (isCommand (decode p.slot) || (b.drop && !w1cDrop (decode p.slot))) := by
  obtain ⟨t, ⟨-, rfl⟩ | ⟨-, tick⟩, e⟩ := nextBlock_busy c rst busy <;> rw [e]
  · rfl
  · exact tick.drop_eq

end

/-- Settles O40: reset; a busy cycle, where a command is dropped; an idle one. -/
theorem dropIsSetByLostCommandsAndClearedByW1c : Obligations.DropIsSetByLostCommandsAndClearedByW1c := by
  unfold Obligations.DropIsSetByLostCommandsAndClearedByW1c
  intro s p rest sound listed
  obtain ⟨t, ht, blk, -⟩ := step_listed sound listed
  refine ⟨t, ht, ?_⟩
  rw [blk]
  cases rst : p.rst with
  | true => rw [nextBlock_reset _ _ rst]; rfl
  | false =>
    by_cases idle : s.blk.phase = .idle
    · simp [nextBlock_drop_idle s.cfg rst idle, idle]
    · rw [nextBlock_drop_busy s.cfg rst idle]
      cases isCommand (decode p.slot) <;> simp [idle]

/-- CTRL shows IE at bit 0 and 0 elsewhere (R19). -/
theorem Block.ctrlWord_getLsbD (b : Block) (i : Nat) : b.ctrlWord.getLsbD i = (decide (i = 0) && b.ie) := by
  cases i <;> simp [Block.ctrlWord]

/-- Settles O41: `nextBlock_ie` over every cycle, and the read by `Block.ctrlWord_getLsbD`. -/
theorem ctrlHoldsIeAlone : Obligations.CtrlHoldsIeAlone := by
  unfold Obligations.CtrlHoldsIeAlone
  constructor
  · intro s p rest sound listed
    obtain ⟨t, ht, blk, -⟩ := step_listed sound listed
    refine ⟨t, ht, rfl, fun rst => ?_, fun rst d written => ?_, fun rst other => ?_⟩ <;> rw [blk]
    · rw [nextBlock_reset _ _ rst]; rfl
    · rw [nextBlock_ie _ _ rst, written]; rfl
    · rw [nextBlock_ie _ _ rst, ieAfter_of_ne_wrCtrl other]
  · intro s dc
    refine ⟨_, exec_eq _ s, ?_, fun i hi => ?_⟩
    · exact s.blk.ctrlWord_getLsbD 0
    · have above : i ≠ 0 := by omega
      simp [readData, Block.ctrlWord_getLsbD, above]

/-- Settles O47: the pin is `outputsOf`'s; IE can fall only by reset or by WR_CTRL (`nextBlock_ie`). -/
theorem irqIsALevelOfIeAndDone : Obligations.IrqIsALevelOfIeAndDone := by
  unfold Obligations.IrqIsALevelOfIeAndDone
  intro s p rest sound listed
  obtain ⟨t, ht, blk, out⟩ := step_listed sound listed
  refine ⟨t, ht, by rw [out]; rfl, rfl, fun irq rst done enabled => ?_⟩
  have ie : s.blk.ie = true := (Bool.and_eq_true_iff.mp irq).1
  have ie' : t.blk.ie = true := by
    rw [blk, nextBlock_ie _ _ rst]
    cases i : decode p.slot with
    | wrCtrl d => exact enabled d i
    | _ => exact ie
  simp [Block.irq, ie', done]

/-! ## DONE, READY, RESULT and DATA -/

/-- Settles O37: `IdleHost.done_eq` for an idle cycle; a busy one keeps DONE but for its W1C, or finishes. -/
theorem doneIsSetByFinishAndClearedByHost : Obligations.DoneIsSetByFinishAndClearedByHost := by
  unfold Obligations.DoneIsSetByFinishAndClearedByHost
  intro s p rest sound listed
  obtain ⟨t, ht, blk, -⟩ := step_listed sound listed
  refine ⟨t, ht, ?_⟩
  rw [blk]
  have idleDone : p.rst = false → s.blk.phase = .idle → (nextBlock s.cfg p s.blk).done =
      if isCommand (decode p.slot) then !s.blk.accepts (decode p.slot)
      else s.blk.done && !w1cDone (decode p.slot) := fun rst idle => by
    obtain ⟨h, host, e⟩ := nextBlock_idle s.cfg rst idle
    rw [e]; exact host.done_eq idle
  refine ⟨fun rst => ?_, fun rst busy ends => ?_, fun rst busy runs => ?_, fun rst idle accepted => ?_,
    fun rst idle command refused => ?_, fun rst idle noCommand => ?_⟩
  · rw [nextBlock_reset _ _ rst]; rfl
  · obtain ⟨res, finished⟩ := FinishedWith.of_idle rst busy ends
    exact finished.done
  · exact (StillRunning.of_busy rst busy runs).done
  · simp [idleDone rst idle, isCommand_of_accepts accepted, accepted]
  · simp [idleDone rst idle, command, refused]
  · simp [idleDone rst idle, noCommand]

/-- Settles O38: a cycle that finishes an INIT's acquisition writes READY (`FinishedWith.ready`), no other one does. -/
theorem readyIsWrittenOnlyByTheFinishOfAnInit : Obligations.ReadyIsWrittenOnlyByTheFinishOfAnInit := by
  unfold Obligations.ReadyIsWrittenOnlyByTheFinishOfAnInit
  intro s p rest sound listed
  obtain ⟨t, ht, blk, -⟩ := step_listed sound listed
  refine ⟨t, ht, ?_⟩
  rw [blk]
  refine ⟨fun rst => ?_, fun rst busy ends isInit => ?_, fun rst keeps => ?_, fun dc rst idle unready acquire => ?_⟩
  · rw [nextBlock_reset _ _ rst]; rfl
  · obtain ⟨res, finished⟩ := FinishedWith.of_idle rst busy ends
    rw [finished.ready, Block.readyAfter_init res _ finished.ends isInit]
    exact decide_eq_decide.mpr finished.result_eq_one.symm
  · by_cases idle : s.blk.phase = .idle
    · obtain ⟨h, host, e⟩ := nextBlock_idle s.cfg rst idle
      rw [e]; exact host.ready_eq
    · rcases busyCycle_runs_or_finished s.cfg rst idle with runs | ⟨res, finished⟩
      · exact runs.ready
      · have isInit : s.blk.isInit = false := by simpa [idle, finished.phase] using keeps
        rw [finished.ready, Block.readyAfter_acquire res _ isInit]
  · obtain ⟨h, host, e⟩ := nextBlock_idle s.cfg rst idle
    rw [acquire] at host
    rw [e, host.of_unready unready]
    exact ⟨rfl, rfl, rfl⟩

/-- Settles O39: RESULT moves with a finish: of a busy cycle (`FinishedWith.result_cases`), or an immediate one. -/
theorem resultIsWrittenOnlyByFinish : Obligations.ResultIsWrittenOnlyByFinish := by
  unfold Obligations.ResultIsWrittenOnlyByFinish
  intro s p rest sound listed
  obtain ⟨t, ht, blk, -⟩ := step_listed sound listed
  refine ⟨t, ht, ?_⟩
  rw [blk]
  refine ⟨fun rst => ?_, fun rst busy runs => ?_, fun rst busy ends => ?_, fun rst idle dc reserved => ?_,
    fun rst idle unready dc acquire => ?_, fun rst idle keeps => ?_⟩
  · rw [nextBlock_reset _ _ rst]; rfl
  · exact (StillRunning.of_busy rst busy runs).result
  · obtain ⟨res, finished⟩ := FinishedWith.of_idle rst busy ends
    exact finished.result_cases
  · obtain ⟨h, host, e⟩ := nextBlock_idle s.cfg rst idle
    rw [reserved] at host
    rw [e, host.of_reserved]; rfl
  · obtain ⟨h, host, e⟩ := nextBlock_idle s.cfg rst idle
    rw [acquire] at host
    rw [e, host.of_unready unready]; rfl
  · obtain ⟨h, host, e⟩ := nextBlock_idle s.cfg rst idle
    rw [e]; exact host.result_eq keeps

/-- Settles O42: DATA moves with RESULT, both halves from one `finish`. -/
theorem dataIsNeverTorn : Obligations.DataIsNeverTorn := by
  unfold Obligations.DataIsNeverTorn
  intro s p rest sound listed
  obtain ⟨t, ht, blk, -⟩ := step_listed sound listed
  refine ⟨t, ht, ?_⟩
  rw [blk]
  refine ⟨fun rst => ?_, fun rst busy runs => ?_, fun rst busy ends ok => ?_, fun rst busy ends failed => ?_,
    fun rst idle unready dc acquire => ?_, fun rst idle keeps => ?_⟩
  · rw [nextBlock_reset _ _ rst]; exact ⟨rfl, rfl⟩
  · have running := StillRunning.of_busy rst busy runs
    exact ⟨running.hum, running.temp⟩
  · obtain ⟨res, finished⟩ := FinishedWith.of_idle rst busy ends
    obtain rfl := finished.result_eq_one.mp ok
    exact ⟨finished.hum, finished.temp⟩
  · obtain ⟨res, finished⟩ := FinishedWith.of_idle rst busy ends
    exact finished.data_of_not_ok fun ok => failed (finished.result_eq_one.mpr ok)
  · obtain ⟨h, host, e⟩ := nextBlock_idle s.cfg rst idle
    rw [acquire] at host
    rw [e, host.of_unready unready]
    exact ⟨rfl, rfl⟩
  · obtain ⟨h, host, e⟩ := nextBlock_idle s.cfg rst idle
    rw [e]; exact host.data_eq keeps

/-! ## The phase and the line -/

/-- The waits, the phases that can end by a TIMEOUT, may lead to IDLE. -/
theorem idle_mem_successors {q : Phase} (waits : (awaited q).isSome = true) : .idle ∈ successors q := by
  cases q <;> simp_all [awaited, successors]

/-- Settles O43: `IdleHost.phase_cases` for an idle cycle, `StillRunning.path` and `FinishedWith.cause` for a busy
one. -/
theorem sequencerFollowsItsPath : Obligations.SequencerFollowsItsPath := by
  unfold Obligations.SequencerFollowsItsPath
  intro s p rest sound listed
  obtain ⟨t, ht, blk, -⟩ := step_listed sound listed
  refine ⟨t, ht, ?_⟩
  rw [blk]
  have leaves : p.rst = false → s.blk.phase = .idle → (nextBlock s.cfg p s.blk).phase = .idle ∨
      (s.blk.accepts (decode p.slot) = true ∧ ((nextBlock s.cfg p s.blk).phase = .start ∨
        ((nextBlock s.cfg p s.blk).phase = .powerup ∧ 0 < s.cfg.powerupUs ∧
          ∃ dc, decode p.slot = .cmdInit dc))) := fun rst idle => by
    obtain ⟨h, host, e⟩ := nextBlock_idle s.cfg rst idle
    rw [e]; exact host.phase_cases idle
  refine ⟨fun rst => ?_, fun rst => ?_, fun rst busy ends => ?_, fun rst idle starts => ?_,
    fun rst idle powerup => ?_⟩
  · rw [nextBlock_reset _ _ rst]; rfl
  · by_cases idle : s.blk.phase = .idle
    · rw [idle]
      rcases leaves rst idle with h | ⟨-, h | ⟨h, -⟩⟩ <;> rw [h] <;> decide
    · rcases busyCycle_runs_or_finished s.cfg rst idle with runs | ⟨res, finished⟩
      · exact runs.path
      · rw [finished.phase]; exact idle_mem_successors finished.waited
  · obtain ⟨res, finished⟩ := FinishedWith.of_idle rst busy ends
    exact finished.cause.imp_left fun timeout => by rw [finished.result, timeout]; rfl
  · rcases leaves rst idle with h | ⟨accepted, -⟩
    · exact absurd h starts
    · exact accepted
  · rcases leaves rst idle with h | ⟨-, h | ⟨-, init⟩⟩
    · simp [h] at powerup
    · simp [h] at powerup
    · exact init

/-- Settles O48: the pin shows `dq_oe` of `S_n` gated by reset, and by the invariant START alone sets `dq_oe`. -/
theorem lineIsDrivenOnlyInStart : Obligations.LineIsDrivenOnlyInStart := by
  unfold Obligations.LineIsDrivenOnlyInStart
  intro s p rest safe listed
  obtain ⟨t, ht, -, out⟩ := step_listed safe.cfg listed
  refine ⟨t, ht, ?_⟩
  rw [out, Bool.eq_iff_iff]
  simp [outputsOf, Block.dqOePin, safe.blk.dqOe_start]

/-! ## The prescaler and the synchroniser -/

/-- Settles O35: the three forms of a cycle (`nextBlock_reset`, `nextBlock_idle`, `nextBlock_busy`) each write it. -/
theorem prescalerCountsOnlyWhileBusy : Obligations.PrescalerCountsOnlyWhileBusy := by
  unfold Obligations.PrescalerCountsOnlyWhileBusy
  intro s p rest sound listed
  obtain ⟨t, ht, blk, -⟩ := step_listed sound listed
  refine ⟨t, ht, ?_⟩
  rw [blk]
  cases rst : p.rst with
  | true => simp [nextBlock_reset _ _ rst, Block.reset]
  | false =>
    by_cases idle : s.blk.phase = .idle
    · obtain ⟨h, -, e⟩ := nextBlock_idle s.cfg rst idle
      simp [e, idle]
    · obtain ⟨h, -, e⟩ := nextBlock_busy s.cfg rst idle
      simp [e, idle]

/-- Settles O36: such a cycle is `nextBlock_between`. -/
theorem betweenTicksTheSequencerWaits : Obligations.BetweenTicksTheSequencerWaits := by
  unfold Obligations.BetweenTicksTheSequencerWaits
  intro s p rest sound listed rst busy noTick
  obtain ⟨t, ht, blk, -⟩ := step_listed sound listed
  refine ⟨t, ht, ?_⟩
  rw [blk, nextBlock_between rst busy noTick]
  rfl

/-- The synchroniser over every cycle without reset (R34). -/
theorem nextBlock_sync (c : Params) (b : Block) {p : Pins} (rst : p.rst = false) :
    (nextBlock c p b).sync1 = p.dqI ∧ (nextBlock c p b).sync2 = b.sync1 := by
  simp [nextBlock, rst]

/-- The level of the line reaches the first stage of the synchroniser only (R34). -/
theorem nextBlock_dqI (c : Params) (b : Block) (p : Pins) (v : Bool) :
    nextBlock c { p with dqI := v } b =
      { nextBlock c p b with sync1 := (nextBlock c { p with dqI := v } b).sync1 } := by
  unfold nextBlock
  cases p.rst <;> rfl

/-- Settles O34: `nextBlock_sync` once and twice, and `nextBlock_dqI`. -/
theorem synchroniserDelaysTheLineTwoCycles : Obligations.SynchroniserDelaysTheLineTwoCycles := by
  unfold Obligations.SynchroniserDelaysTheLineTwoCycles
  refine ⟨?_, ?_, ?_⟩
  · intro s p rest sound listed
    obtain ⟨t, ht, blk, -⟩ := step_listed sound listed
    refine ⟨t, ht, fun rst => ?_, fun rst => ?_⟩ <;> rw [blk]
    · exact nextBlock_sync _ _ rst
    · rw [nextBlock_reset _ _ rst]; exact ⟨rfl, rfl⟩
  · intro s p q rest sound listed rstP rstQ
    obtain ⟨t, ht, blk, -⟩ := step_listed sound listed
    obtain ⟨-, cfg, -, inputs, -⟩ := step_next ht
    obtain ⟨u, hu, blk', -⟩ := step_listed (s := t) (by rw [cfg]; exact sound) (by rw [inputs, listed]; rfl)
    refine ⟨u, by rw [run_succ, ht, andThen_next, run_one, hu], ?_⟩
    rw [blk', (nextBlock_sync _ _ rstQ).2, blk, (nextBlock_sync _ _ rstP).1]
  · intro s p rest v sound
    obtain ⟨t, ht, blk, out⟩ := step_listed (s := { s with inputs := p :: rest }) sound rfl
    obtain ⟨u, hu, blk', out'⟩ := step_listed (s := { s with inputs := { p with dqI := v } :: rest }) sound rfl
    refine ⟨t, u, ht, hu, ?_, by rw [out, out']; rfl⟩
    rw [blk, blk']
    exact nextBlock_dqI _ _ _ _

/-! ## STATUS and the reset values -/

/-- The layout of STATUS, bit by bit (R25). -/
theorem Block.statusWord_getLsbD (b : Block) (i : Nat) :
    b.statusWord.getLsbD i =
      if i = 0 then b.busy else if i = 1 then b.done else if i = 2 then b.ready else if i = 3 then b.drop
      else b.result.getLsbD (i - 4) := by
  have low := BitVec.getLsbD_append (x := 0#25 ++ b.result ++ BitVec.ofBool b.drop ++ BitVec.ofBool b.ready ++
    BitVec.ofBool b.done) (y := BitVec.ofBool b.busy) (i := i)
  refine low.trans ?_
  simp only [BitVec.getLsbD_append]
  rcases i with _ | _ | _ | _ | n <;> simp
  exact BitVec.lt_of_getLsbD

theorem Block.statusWord_getLsbD_above (b : Block) {i : Nat} (above : 4 ≤ i) :
    b.statusWord.getLsbD i = b.result.getLsbD (i - 4) := by
  rw [statusWord_getLsbD, if_neg (by omega), if_neg (by omega), if_neg (by omega), if_neg (by omega)]

/-- Settles O10: the layout by `Block.statusWord_getLsbD`; of a write's data only `clearsDone` and
`clearsDrop` count. -/
theorem statusBitsStandWhereTheLayoutPutsThem : Obligations.StatusBitsStandWhereTheLayoutPutsThem := by
  unfold Obligations.StatusBitsStandWhereTheLayoutPutsThem
  constructor
  · intro s dc
    refine ⟨_, exec_eq _ s, rfl, ?_⟩
    have bit := s.blk.statusWord_getLsbD
    refine ⟨bit 0, bit 1, bit 2, bit 3, ?_, fun i hi => ?_⟩
    · apply BitVec.eq_of_getLsbD_eq
      intro i hi
      simp [readData, hi, Block.statusWord_getLsbD_above]
    · exact (s.blk.statusWord_getLsbD_above (by omega)).trans (BitVec.getLsbD_of_ge _ _ (by omega))
  · intro s d e done drop
    simp only [exec_eq, effect, readData, clearsDone, clearsDrop, done, drop]

/-- Settles O50: `Block.reset` is written out with these values; the register words are evaluated on it. -/
theorem resetValuesAreThoseOfTheTable : Obligations.ResetValuesAreThoseOfTheTable := by
  unfold Obligations.ResetValuesAreThoseOfTheTable
  rintro c b rfl
  refine ⟨?_, ?_, rfl, ?_, rfl⟩
  · exact ⟨rfl, rfl, rfl, rfl, rfl, rfl, rfl, rfl, rfl, rfl, rfl, rfl, rfl, rfl, rfl, rfl, rfl⟩
  · rw [State.resetWith_blk]; decide
  · rw [State.resetWith_blk]; decide

end Sys2Proof.Machine
end

section
/-! PROOFS. Cycles refine sampler ticks (R36, R88): a tick's operation reads `dq_s` and neither the prescaler nor the
first stage of the synchroniser, and the cycles between two ticks change only these three. -/

namespace Sys2Proof.Machine

/-! ## A tick's operation is blind to the prescaler and to `sync1` -/

/-- The registers with another prescaler and another first stage of the synchroniser. -/
def Block.withClock (n : Nat) (v : Bool) (b : Block) : Block := { b with presc := n, sync1 := v }

section
variable (n : Nat) (v : Bool) (b : Block)

theorem Block.wait_withClock (level : Bool) (timeout : Nat) {onSeen : Nat → Block → Block}
    (blind : ∀ j b, onSeen j (withClock n v b) = (onSeen j b).withClock n v) :
    (b.withClock n v).wait level timeout onSeen = (b.wait level timeout onSeen).withClock n v := by
  rcases wait_cases level timeout onSeen b with ⟨seen, e⟩ | ⟨unseen, spent, e⟩ | ⟨unseen, below, e⟩ <;> rw [e]
  · rw [wait_seen (b := b.withClock n v) seen]
    exact blind (b.cnt + 1) { b with cnt := 0 }
  · rw [wait_timeout (b := b.withClock n v) unseen spent]
    rfl
  · rw [wait_counts (b := b.withClock n v) unseen below]
    rfl

theorem Block.count_withClock (length : Nat) {onEnd : Block → Block}
    (blind : ∀ b, onEnd (withClock n v b) = (onEnd b).withClock n v) :
    (b.withClock n v).count length onEnd = (b.count length onEnd).withClock n v := by
  have same : (b.withClock n v).cnt = b.cnt := rfl
  unfold count
  rw [same]
  split
  · exact blind { b with cnt := 0 }
  · rfl

theorem Block.bitDone_withClock (h : Nat) : (b.withClock n v).bitDone h = (b.bitDone h).withClock n v := by
  have sameIdx : (b.withClock n v).bitidx = b.bitidx := rfl
  have sameFrame : (b.withClock n v).sr = b.sr ∧ (b.withClock n v).lowDur = b.lowDur := ⟨rfl, rfl⟩
  unfold bitDone validate
  simp only [sameIdx, sameFrame]
  split
  · split <;> rfl
  · rfl

/-- The operation of a busy phase is blind to the prescaler and to the first stage of the synchroniser (R88). -/
theorem effect_op_withClock (c : Params) {q : Phase} (busy : q ≠ .idle) :
    effect c q.op (b.withClock n v) = (effect c q.op b).withClock n v := by
  cases q <;> simp only [Phase.op, effect]
  case idle => exact absurd rfl busy
  case powerup | start => exact Block.count_withClock _ _ _ _ fun _ => rfl
  case waitBitLo => exact Block.wait_withClock _ _ _ _ _ fun j b => b.bitDone_withClock n v j
  all_goals exact Block.wait_withClock _ _ _ _ _ fun _ _ => rfl

end

/-! ## Cycles with a quiet host -/

/-- The inputs of the next `n` cycles are listed, without a reset and without a transaction. -/
def State.Quiet (s : State) (n : Nat) : Prop := s.NoReset n ∧ ∀ p ∈ s.inputs.take n, p.busSel = false

theorem State.Quiet.head {s : State} {n : Nat} (h : s.Quiet (n + 1)) :
    ∃ p ps, s.inputs = p :: ps ∧ p.rst = false ∧ decode p.slot = .busIdle := by
  obtain ⟨p, ps, listed, rst, -⟩ := h.1.head
  have unselected : p.busSel = false := h.2 p (by simp [listed])
  exact ⟨p, ps, listed, rst, by simp [Pins.slot, unselected, decode]⟩

theorem State.Quiet.mono {s : State} {m n : Nat} (h : s.Quiet n) (le : m ≤ n) : s.Quiet m :=
  ⟨h.1.mono le, fun p hp => h.2 p (List.take_subset_take_left _ le hp)⟩

/-- What is quiet stays quiet after `m` of its cycles. -/
theorem State.Quiet.drop {s t : State} {m n : Nat} (h : s.Quiet (m + n)) (later : t.inputs = s.inputs.drop m) :
    t.Quiet n := by
  obtain ⟨⟨len, rst⟩, sel⟩ := h
  have sub : ∀ p ∈ t.inputs.take n, p ∈ s.inputs.take (m + n) := fun p hp => by
    rw [later, ← Nat.add_sub_cancel_left (n := m) (m := n), ← List.drop_take] at hp
    exact List.mem_of_mem_drop hp
  refine ⟨⟨?_, fun p hp => rst p (sub p hp)⟩, fun p hp => sel p (sub p hp)⟩
  rw [later, List.length_drop]
  omega

/-- The last cycle of a run. -/
theorem run_snoc {s t : State} {m : Nat} (h : run m s = .next t) : run (m + 1) s = step t := by
  rw [run_add, h, andThen_next, run_one]

/-- A run of a busy machine up to its next tick moves the prescaler and the synchroniser only (R36, R88). -/
theorem run_between_ticks {s : State} (sound : s.cfg.wf = true) (busy : s.blk.phase ≠ .idle) (m : Nat)
    (room : s.blk.presc + m < s.cfg.cyclesPerUs) (quiet : s.Quiet m) :
    ∃ t v w, run m s = .next t ∧ t.cfg = s.cfg ∧ t.inputs = s.inputs.drop m ∧
      t.blk = ({ s.blk with sync2 := w } : Block).withClock (s.blk.presc + m) v := by
  induction m with
  | zero => exact ⟨s, _, _, rfl, rfl, rfl, rfl⟩
  | succ m ih =>
    obtain ⟨t, v, w, ht, cfg, later, blk⟩ := ih (by omega) (quiet.mono m.le_succ)
    obtain ⟨p, ps, listed, rst, host⟩ := (quiet.drop later).head
    obtain ⟨u, hu, ublk, -⟩ := step_listed (by rw [cfg]; exact sound) listed
    obtain ⟨-, ucfg, -, utail, -, -⟩ := step_next hu
    refine ⟨u, p.dqI, v, by rw [run_snoc ht, hu], ucfg.trans cfg, by rw [utail, later, List.tail_drop], ?_⟩
    have busy' : t.blk.phase ≠ .idle := by rw [blk]; exact busy
    have noTick : t.blk.presc ≠ t.cfg.cyclesPerUs - 1 := by
      rw [blk, cfg]
      exact (show s.blk.presc + m < s.cfg.cyclesPerUs - 1 by omega).ne
    have counts : (t.blk.presc + 1) % t.cfg.cyclesPerUs = s.blk.presc + (m + 1) := by
      rw [blk, cfg]
      exact Nat.mod_eq_of_lt room
    rw [ublk, nextBlock_between rst busy' noTick, host, Block.hostFlags_busIdle, Block.advancePresc, counts, blk]
    rfl

/-- One tick period of a busy machine: its last cycle runs the phase's operation on the level `dq_s` has then. -/
theorem run_period {s u : State} (sound : s.cfg.wf = true) (busy : s.blk.phase ≠ .idle) (presc : s.blk.presc = 0)
    (quiet : s.Quiet s.cfg.cyclesPerUs) (tick : run (s.cfg.cyclesPerUs - 1) s = .next u) :
    ∃ t v w, run s.cfg.cyclesPerUs s = .next t ∧ t.cfg = s.cfg ∧ t.inputs = s.inputs.drop s.cfg.cyclesPerUs ∧
      t.blk = ({ effect s.cfg s.blk.phase.op { s.blk with sync2 := u.blk.sync2 } with sync2 := w } : Block).withClock
        0 v := by
  have pos := Params.cyclesPerUs_pos sound
  have period : s.cfg.cyclesPerUs - 1 + 1 = s.cfg.cyclesPerUs := Nat.sub_add_cancel pos
  obtain ⟨u', v, w, hu', cfg, later, blk⟩ := run_between_ticks sound busy (s.cfg.cyclesPerUs - 1) (by omega)
    (quiet.mono (Nat.sub_le _ _))
  obtain rfl : u = u' := by rw [tick] at hu'; cases hu'; rfl
  obtain ⟨p, ps, listed, rst, host⟩ := (State.Quiet.drop (n := 1) (by rwa [period]) later).head
  obtain ⟨t, ht, tblk, -⟩ := step_listed (by rw [cfg]; exact sound) listed
  obtain ⟨-, tcfg, -, ttail, -, -⟩ := step_next ht
  refine ⟨t, p.dqI, u.blk.sync1, by rw [← period, run_snoc tick, ht], tcfg.trans cfg, ?_, ?_⟩
  · rw [ttail, later, List.tail_drop, period]
  · have busy' : u.blk.phase ≠ .idle := by rw [blk]; exact busy
    have last : u.blk.presc = u.cfg.cyclesPerUs - 1 := by
      rw [blk, cfg]
      exact (congrArg (· + (s.cfg.cyclesPerUs - 1)) presc).trans (Nat.zero_add _)
    have wraps : (u.blk.presc + 1) % u.cfg.cyclesPerUs = 0 := by rw [last, cfg, period, Nat.mod_self]
    have phase : u.blk.phase = s.blk.phase := by rw [blk]; rfl
    have clock : u.blk = ({ s.blk with sync2 := u.blk.sync2 } : Block).withClock u.blk.presc v := by rw [blk]; rfl
    have ran := (congrArg (effect s.cfg s.blk.phase.op) clock).trans (effect_op_withClock _ _ _ _ busy)
    rw [tblk, nextBlock_tick rst busy' last, host, Block.hostFlags_busIdle, Block.advancePresc, wraps, cfg, phase, ran]
    rfl

/-! ## Ticks and tick periods side by side -/

theorem sampleTicks_snoc (samples : List Bool) (v : Bool) (s : State) :
    sampleTicks (samples ++ [v]) s = andThen (sampleTicks samples s) (State.sampleTick v) := by
  induction samples generalizing s with
  | nil => cases h : s.sampleTick v <;> simp [sampleTicks, h]
  | cons x xs ih =>
    rw [List.cons_append, sampleTicks, sampleTicks]
    cases s.sampleTick x with
    | next t => exact ih t
    | fault r => rfl
    | refused r => rfl

/-- A tick of the sampler on the block's registers (R63, R88). -/
theorem sampleTick_eq (v : Bool) (s : State) :
    s.sampleTick v = .next (s.setBlk (effect s.cfg s.blk.phase.op { s.blk with sync2 := v })) := by
  rw [State.sampleTick, decode_phase_code, exec_op_eq]
  rfl

/-- Two blocks that run the same operation, the second at the start of a tick period: they differ in the prescaler and
the synchroniser at most. -/
def SameOperation (b t : Block) : Prop := t = { b with presc := 0, sync1 := t.sync1, sync2 := t.sync2 }

/-- After `k` tick periods of cycles and after `k` ticks of the sampler the operation stands at the same place. -/
theorem periods_refine_ticks {s : State} {samples : List Bool} (sound : s.cfg.wf = true) (presc : s.blk.presc = 0)
    (quiet : s.Quiet (samples.length * s.cfg.cyclesPerUs))
    (levels : ∀ (k : Nat) (hk : k < samples.length),
      ∃ u, run (k * s.cfg.cyclesPerUs + (s.cfg.cyclesPerUs - 1)) s = .next u ∧ u.blk.sync2 = samples[k])
    (lasts : ∀ k, k < samples.length → ∃ u, sampleTicks (samples.take k) s = .next u ∧ u.blk.phase ≠ .idle)
    (k : Nat) (hk : k ≤ samples.length) :
    ∃ t u, run (k * s.cfg.cyclesPerUs) s = .next t ∧ t.cfg = s.cfg ∧
      t.inputs = s.inputs.drop (k * s.cfg.cyclesPerUs) ∧
      sampleTicks (samples.take k) s = .next u ∧ u.cfg = s.cfg ∧ SameOperation u.blk t.blk := by
  induction k with
  | zero =>
    refine ⟨s, s, by rw [Nat.zero_mul]; rfl, rfl, by rw [Nat.zero_mul]; rfl, rfl, rfl, ?_⟩
    exact congrArg (fun n => ({ s.blk with presc := n } : Block)) presc
  | succ k ih =>
    obtain ⟨t, u, ht, tcfg, later, hu, ucfg, same⟩ := ih (by omega)
    obtain ⟨u', hu', busy⟩ := lasts k hk
    obtain rfl : u = u' := by rw [hu] at hu'; cases hu'; rfl
    obtain ⟨x, hx, level⟩ := levels k hk
    rw [run_add, ht, andThen_next] at hx
    have busy' : t.blk.phase ≠ .idle := by rw [same]; exact busy
    have quiet' : t.Quiet s.cfg.cyclesPerUs := by
      refine State.Quiet.drop (quiet.mono ?_) later
      rw [← Nat.succ_mul]
      exact Nat.mul_le_mul_right _ hk
    rw [← tcfg] at hx quiet'
    obtain ⟨t', v, w, ht', tcfg', later', blk⟩ :=
      run_period (by rw [tcfg]; exact sound) busy' (by rw [same]) quiet' hx
    rw [tcfg] at ht' later' blk
    refine ⟨t', u.setBlk (effect u.cfg u.blk.phase.op { u.blk with sync2 := samples[k] }), ?_, tcfg'.trans tcfg, ?_, ?_,
      ucfg, ?_⟩
    · rw [Nat.succ_mul, run_add, ht, andThen_next, ht']
    · rw [later', later, List.drop_drop, Nat.succ_mul]
    · rw [List.take_succ_eq_append_getElem hk, sampleTicks_snoc, hu, andThen_next, sampleTick_eq]
    · have clock : ({ t.blk with sync2 := samples[k] } : Block) =
          ({ u.blk with sync2 := samples[k] } : Block).withClock 0 t.blk.sync1 := by rw [same]; rfl
      have phase : t.blk.phase = u.blk.phase := by rw [same]
      rw [level, clock, phase, effect_op_withClock _ _ _ _ busy] at blk
      rw [blk, ucfg]
      rfl

/-- Settles O33: `periods_refine_ticks` for all the samples. -/
theorem cyclesRefineSamplerTicks : Obligations.CyclesRefineSamplerTicks := by
  unfold Obligations.CyclesRefineSamplerTicks
  intro s samples sound _ presc noReset unselected levels lasts
  obtain ⟨t, u, ht, -, -, hu, -, same⟩ :=
    periods_refine_ticks sound presc ⟨noReset, unselected⟩ levels lasts samples.length le_rfl
  rw [List.take_length] at hu
  exact ⟨t, u, ht, hu, same⟩

end Sys2Proof.Machine
end

section
/-! PROOFS. The read port (40_host_commands.md sections 1 and 2): what a cycle's port decodes to, `bus_rdata` as
`RegRead` of the old state (R49), and the reserved words (R42). -/

namespace Sys2Proof.Machine

/-! ## What the port of a cycle decodes to -/

theorem decode_slot_unselected {p : Pins} (unselected : p.busSel = false) : decode p.slot = .busIdle := by
  simp [Pins.slot, unselected, decode]

theorem decode_slot_read {p : Pins} (selected : p.busSel = true) (read : p.busWe = false) :
    decode p.slot = decodeRead p.txn := by
  simp [Pins.slot, Pins.txn, selected, read, decode, decodeTxn]

theorem decode_slot_write {p : Pins} (selected : p.busSel = true) (write : p.busWe = true) :
    decode p.slot = decodeWrite p.txn := by
  simp [Pins.slot, Pins.txn, selected, write, decode, decodeTxn]

@[simp] theorem addr_txn (p : Pins) : Txn.addr p.txn = p.busAddr := addr_mkTxn _ _ _

/-- A word index from 4 on is none of the four registers' (R42). -/
theorem ne_of_reserved {a k : BitVec 3} (reserved : 4 ≤ a.toNat) (register : k.toNat < 4) : a ≠ k := by
  rintro rfl
  omega

theorem decodeRead_reserved {t : Txn} (reserved : 4 ≤ (Txn.addr t).toNat) :
    decodeRead t = .rdRsvd (Txn.addr t) (Txn.wdata t) := by
  simp [decodeRead, ne_of_reserved reserved]

theorem decodeWrite_reserved {t : Txn} (reserved : 4 ≤ (Txn.addr t).toNat) :
    decodeWrite t = .wrRsvd (Txn.addr t) (Txn.wdata t) := by
  simp [decodeWrite, ne_of_reserved reserved]

/-! ## `bus_rdata` -/

/-- A read's row puts `RegRead` of its word index on `bus_rdata`, whatever stood there (R49, R65 to R69). -/
theorem readData_decodeRead (b : Block) (v : Word) (t : Txn) :
    readData b v (decodeRead t) = b.regRead (Txn.addr t) := by
  unfold decodeRead Block.regRead
  split
  case isTrue cmd => simp [cmd, readData]
  case isFalse => split_ifs <;> rfl

/-- No write drives `bus_rdata`. -/
theorem readData_decodeWrite (b : Block) (v : Word) (t : Txn) : readData b v (decodeWrite t) = v := by
  unfold decodeWrite decodeCommand
  split_ifs <;> rfl

/-- `bus_rdata` after the transaction of a cycle that found 0 on it (R39, R49). -/
theorem readData_slot (b : Block) (p : Pins) :
    readData b 0 (decode p.slot) = if p.busSel = true ∧ p.busWe = false then b.regRead p.busAddr else 0 := by
  cases sel : p.busSel with
  | false => rw [decode_slot_unselected sel]; simp [readData]
  | true =>
    cases we : p.busWe with
    | false => rw [decode_slot_read sel we, readData_decodeRead, addr_txn]; simp
    | true => rw [decode_slot_write sel we, readData_decodeWrite]; simp

/-- CTRL's word is IE as a number (R19). -/
theorem Block.ctrlWord_eq (b : Block) : b.ctrlWord = if b.ie then 1 else 0 := by
  unfold Block.ctrlWord
  cases b.ie <;> rfl

/-- Settles O9: the cycle's `bus_rdata` is `outputsOf`'s, reset or not, which is `RegRead` by `readData_slot`. -/
theorem busRdataIsRegReadOfTheOldState : Obligations.BusRdataIsRegReadOfTheOldState := by
  unfold Obligations.BusRdataIsRegReadOfTheOldState
  intro s p rest sound listed
  obtain ⟨t, ht, -, out⟩ := step_listed sound listed
  have rdata : t.out.busRdata = _ := (congrArg Outputs.busRdata out).trans (readData_slot s.blk p)
  rw [Block.regRead, Block.ctrlWord_eq] at rdata
  exact ⟨t, ht, rdata⟩

/-! ## The reserved words -/

theorem exec_rdRsvd (s : State) (a : BitVec 3) (d : Word) :
    exec (.rdRsvd a d) s = .next { s with out := { s.out with busRdata := 0 } } := exec_eq _ s

theorem exec_wrRsvd (s : State) (a : BitVec 3) (d : Word) : exec (.wrRsvd a d) s = .next s := exec_eq _ s

/-- Settles O13: the two reserved rows by `exec_eq`, and every transaction with a reserved word index is one of them. -/
theorem reservedWordsReadZeroAndIgnoreWrites : Obligations.ReservedWordsReadZeroAndIgnoreWrites := by
  unfold Obligations.ReservedWordsReadZeroAndIgnoreWrites
  refine ⟨fun s a d => ⟨exec_rdRsvd s a d, exec_wrRsvd s a d⟩, fun s p selected reserved => ?_⟩
  rw [← addr_txn] at reserved
  cases we : p.busWe with
  | false =>
    rw [decode_slot_read selected we, decodeRead_reserved reserved]
    exact exec_rdRsvd _ _ _
  | true =>
    rw [decode_slot_write selected we, decodeWrite_reserved reserved]
    exact exec_wrRsvd _ _ _

end Sys2Proof.Machine
end

section
/-! PROOFS. Noninterference (R46, R74, R145): in a busy cycle the host writes `ie`, `done` and `drop` only, and nothing
that the sequencer does in a cycle reads these three; so two blocks alike but for them stay so, over a cycle and
over a run. -/

namespace Sys2Proof.Machine

/-- Blocks alike to the sequencer: the second is the first with other flags. -/
theorem SameSequencer.flags {b d : Block} (same : SameSequencer b d) :
    ∃ ie done drop, d = { b with ie := ie, done := done, drop := drop } := ⟨_, _, _, same⟩

@[refl] theorem SameSequencer.refl (b : Block) : SameSequencer b b := rfl

theorem SameSequencer.place_eq {b d : Block} (same : SameSequencer b d) :
    d.phase = b.phase ∧ d.presc = b.presc ∧ d.sync1 = b.sync1 := by
  obtain ⟨_, _, _, rfl⟩ := same.flags
  exact ⟨rfl, rfl, rfl⟩

/-- A function of the registers that carries nothing of `ie`, `done` and `drop` over to the others. -/
def FlagBlind (g : Block → Block) : Prop :=
  ∀ b ie done drop, SameSequencer (g b) (g { b with ie := ie, done := done, drop := drop })

theorem FlagBlind.same {g : Block → Block} (blind : FlagBlind g) {b d : Block} (same : SameSequencer b d) :
    SameSequencer (g b) (g d) := by
  obtain ⟨_, _, _, rfl⟩ := same.flags
  exact blind _ _ _ _

/-! ## No operation of the sequencer reads the flags -/

theorem flagBlind_count (length : Nat) {onEnd : Block → Block} (blind : FlagBlind onEnd) :
    FlagBlind (Block.count length onEnd) := by
  intro b _ _ _
  unfold Block.count
  dsimp only
  split
  · exact blind { b with cnt := 0 } _ _ _
  · rfl

theorem flagBlind_wait (level : Bool) (timeout : Nat) {onSeen : Nat → Block → Block}
    (blind : ∀ j, FlagBlind (onSeen j)) : FlagBlind (Block.wait level timeout onSeen) := by
  intro b _ _ _
  unfold Block.wait
  dsimp only
  split
  · exact blind (b.cnt + 1) { b with cnt := 0 } _ _ _
  · split <;> rfl

theorem flagBlind_bitDone (h : Nat) : FlagBlind (Block.bitDone h) := by
  intro b _ _ _
  unfold Block.bitDone Block.validate
  dsimp only
  split
  · split <;> rfl
  · rfl

theorem flagBlind_op (c : Params) (q : Phase) : FlagBlind (effect c q.op) := by
  intro b ie done drop
  cases q <;> simp only [Phase.op, effect]
  case idle => rfl
  case powerup | start =>
    refine flagBlind_count _ ?_ b ie done drop
    exact fun _ _ _ _ => rfl
  case waitAckLo | waitAckHi | waitDataLo | waitBitHi =>
    refine flagBlind_wait _ _ ?_ b ie done drop
    exact fun _ _ _ _ _ => rfl
  case waitBitLo => exact flagBlind_wait _ _ flagBlind_bitDone b ie done drop

/-! ## A cycle of blocks that are alike -/

section
variable {b d : Block}

theorem SameSequencer.hostFlags (same : SameSequencer b d) (i j : Instr) :
    SameSequencer (b.hostFlags i) (d.hostFlags j) := by
  obtain ⟨_, _, _, rfl⟩ := same.flags
  rfl

theorem SameSequencer.clock (same : SameSequencer b d) (c : Params) (n : Nat) (v w : Bool) :
    SameSequencer ((b.advancePresc c n).synchronise v w) ((d.advancePresc c n).synchronise v w) := by
  obtain ⟨_, _, _, rfl⟩ := same.flags
  rfl

/-- One busy cycle of blocks that are alike, with the same line and reset and any two hosts. -/
theorem SameSequencer.nextBlock (same : SameSequencer b d) (c : Params) {p q : Pins} (busy : b.phase ≠ .idle)
    (line : lineOf p = lineOf q) : SameSequencer (nextBlock c p b) (nextBlock c q d) := by
  obtain ⟨sameRst, sameLine⟩ : p.rst = q.rst ∧ p.dqI = q.dqI := Prod.mk.inj line
  obtain ⟨phase, presc, sync1⟩ := same.place_eq
  have host := same.hostFlags (decode p.slot) (decode q.slot)
  cases rst : p.rst with
  | true => rw [nextBlock_reset _ _ rst, nextBlock_reset _ _ (sameRst ▸ rst)]
  | false =>
    have rst' : q.rst = false := sameRst ▸ rst
    have busy' : d.phase ≠ .idle := phase ▸ busy
    by_cases tick : b.presc = c.cyclesPerUs - 1
    · rw [nextBlock_tick rst busy tick, nextBlock_tick rst' busy' (presc.trans tick), phase, presc, sync1, sameLine]
      exact ((flagBlind_op c b.phase).same host).clock _ _ _ _
    · rw [nextBlock_between rst busy tick, nextBlock_between rst' busy' (presc ▸ tick), presc, sync1, sameLine]
      exact host.clock _ _ _ _

end

/-- Settles O44: `SameSequencer.nextBlock` for one block and two host ports. -/
theorem hostCannotDisturbABusySequencer : Obligations.HostCannotDisturbABusySequencer := by
  unfold Obligations.HostCannotDisturbABusySequencer
  intro s p q rest sound busy line
  obtain ⟨t, ht, blk, -⟩ := step_listed (s := { s with inputs := p :: rest }) sound rfl
  obtain ⟨u, hu, blk', -⟩ := step_listed (s := { s with inputs := q :: rest }) sound rfl
  refine ⟨t, u, ht, hu, ?_⟩
  rw [blk, blk']
  exact (SameSequencer.refl s.blk).nextBlock _ busy line

/-- Settles O45: induction on the number of cycles, by `SameSequencer.nextBlock`; the first machine is busy before each
of them, and with it the second. -/
theorem acquisitionIsIndependentOfTheHost : Obligations.AcquisitionIsIndependentOfTheHost := by
  unfold Obligations.AcquisitionIsIndependentOfTheHost
  intro s s' n
  induction n generalizing s s' with
  | zero => exact fun _ _ same _ _ _ => ⟨s, s', rfl, rfl, same⟩
  | succ n ih =>
    intro sound cfg same len lines lasts
    obtain ⟨p, rest, listed⟩ := List.exists_cons_of_length_pos (Nat.zero_lt_of_lt len)
    rw [listed, List.map_cons] at lines
    obtain ⟨q, rest', listed', line, later⟩ := List.map_eq_cons_iff.mp lines
    have busy : s.blk.phase ≠ .idle := by
      obtain ⟨_, ⟨⟩, busy⟩ := lasts 0 n.succ_pos
      exact busy
    obtain ⟨t, ht, blk, -⟩ := step_listed sound listed
    obtain ⟨t', ht', blk', -⟩ := step_listed (cfg ▸ sound) listed'
    obtain ⟨-, tcfg, -, tail, -, -⟩ := step_next ht
    obtain ⟨-, tcfg', -, tail', -, -⟩ := step_next ht'
    have alike : SameSequencer t.blk t'.blk := by
      rw [blk, blk', cfg]
      exact same.nextBlock _ busy line.symm
    rw [listed, List.tail_cons] at tail
    rw [listed', List.tail_cons] at tail'
    rw [listed, List.length_cons, Nat.add_le_add_iff_right] at len
    simp only [run_succ, ht, ht', andThen_next]
    refine ih t t' (tcfg ▸ sound) (by rw [tcfg', cfg, tcfg]) alike (tail ▸ len) (by rw [tail, tail', later]) ?_
    intro m hm
    obtain ⟨u, hu, busy⟩ := lasts (m + 1) (Nat.succ_lt_succ hm)
    rw [run_succ, ht, andThen_next] at hu
    exact ⟨u, hu, busy⟩

end Sys2Proof.Machine
end

section
/-! PROOFS. The encoding (30_encoding.md): `decode` and `encode` are inverse to each other (R53, R54), each row of the
opcode map in terms of the word's fields (R57), no two rows of opcode_table.json accept one word, and the phase codes
(R59). -/

namespace Sys2Proof
open Machine Laws

/-! ## The halves of the opcode map -/

section
variable {t : Txn}

theorem decode_read (read : Txn.we t = false) : decode (.bus t) = decodeRead t := by
  simp [decode, decodeTxn, read]

theorem decode_write (write : Txn.we t = true) : decode (.bus t) = decodeWrite t := by
  simp [decode, decodeTxn, write]

theorem decode_command (write : Txn.we t = true) (cmd : Txn.addr t = 0) : decode (.bus t) = decodeCommand t := by
  rw [decode_write write, decodeWrite, if_pos cmd]

end

/-- R42's two ways to say reserved: bit 2 of the word index, and the range 4 to 7. -/
theorem reservedAddr_iff : ∀ a : BitVec 3, reservedAddr a = true ↔ 4 ≤ a.toNat := by decide

theorem reservedAddr_of_ne :
    ∀ a : BitVec 3, a ≠ 0 → a ≠ 1 → a ≠ 2 → a ≠ 3 → reservedAddr a = true := by decide

/-! ## Decoding after encoding -/

theorem decode_mkTxn_read (a : BitVec 3) (d : Word) : decode (.bus (mkTxn false a d)) = decodeRead (mkTxn false a d) :=
  decode_read (we_mkTxn false a d)

theorem decode_mkTxn_write (a : BitVec 3) (d : Word) : decode (.bus (mkTxn true a d)) = decodeWrite (mkTxn true a d) :=
  decode_write (we_mkTxn true a d)

theorem decode_mkCmd (o : BitVec 2) (dc : BitVec 30) : decode (.bus (mkCmd o dc)) = decodeCommand (mkCmd o dc) :=
  decode_command (we_mkCmd o dc) (addr_mkCmd o dc)

/-- The word index of an encoded RD_RSVD or WR_RSVD is in the range of R42. -/
theorem addr_mkTxn_reserved {a : BitVec 3} (reserved : reservedAddr a = true) (we : Bool) (d : Word) :
    4 ≤ (Txn.addr (mkTxn we a d)).toNat := by
  rw [addr_mkTxn]
  exact (reservedAddr_iff a).mp reserved

theorem decode_encode {i : Instr} (wf : i.wf = true) : decode (encode i) = i := by
  cases i with
  | rdCmd dc | rdCtrl dc | rdStatus dc | rdData dc => simp [encode, decode_mkTxn_read, decodeRead]
  | rdRsvd a dc =>
    rw [encode, decode_mkTxn_read, decodeRead_reserved (addr_mkTxn_reserved wf _ _), addr_mkTxn, wdata_mkTxn]
  | cmdNop dc | cmdInit dc | cmdAcquire dc | cmdRsvd dc => simp [encode, decode_mkCmd, decodeCommand]
  | wrCtrl d | wrStatus d | wrData d => simp [encode, decode_mkTxn_write, decodeWrite]
  | wrRsvd a d =>
    rw [encode, decode_mkTxn_write, decodeWrite_reserved (addr_mkTxn_reserved wf _ _), addr_mkTxn, wdata_mkTxn]
  | busIdle => rfl
  | phaseIdle => exact decode_phase_code .idle
  | phasePowerup => exact decode_phase_code .powerup
  | phaseStart => exact decode_phase_code .start
  | phaseWaitAckLo => exact decode_phase_code .waitAckLo
  | phaseWaitAckHi => exact decode_phase_code .waitAckHi
  | phaseWaitDataLo => exact decode_phase_code .waitDataLo
  | phaseWaitBitHi => exact decode_phase_code .waitBitHi
  | phaseWaitBitLo => exact decode_phase_code .waitBitLo

/-- Settles O1: `decode_encode`, row by row from what the fields of an encoded word are (`addr_mkTxn`, `op_mkCmd`). -/
theorem decodeOfEncodeIsTheInstruction : Obligations.DecodeOfEncodeIsTheInstruction := fun _ => decode_encode

/-! ## Encoding after decoding -/

/-- A command's data is its ignored bits and OP (R54). -/
theorem opIgnored_append_op (t : Txn) : Txn.opIgnored t ++ Txn.op t = Txn.wdata t := by
  apply BitVec.eq_of_getLsbD_eq
  intro i hi
  have source := BitVec.getLsbD_append (x := Txn.opIgnored t) (y := Txn.op t) (i := i)
  refine source.trans ?_
  by_cases low : i < 2
  · simp [Txn.op, Txn.wdata, low, hi]
  · have high : i - 2 < 30 := by omega
    have place : 2 + (i - 2) = i := by omega
    simp [Txn.opIgnored, Txn.wdata, low, hi, high, place]

theorem op_eq_three_of_ne : ∀ o : BitVec 2, o ≠ 0 → o ≠ 1 → o ≠ 2 → o = 3 := by decide

theorem encode_decodeRead (t : Txn) : encode (decodeRead t) = .bus (mkTxn false (Txn.addr t) (Txn.wdata t)) := by
  unfold decodeRead
  split_ifs with cmd ctrl status data
  · rw [encode, cmd]
  · rw [encode, ctrl]
  · rw [encode, status]
  · rw [encode, data]
  · rw [encode]

theorem encode_decodeCommand (t : Txn) : encode (decodeCommand t) = .bus (mkTxn true 0 (Txn.wdata t)) := by
  rw [← opIgnored_append_op t]
  unfold decodeCommand
  split_ifs with nop init acquire
  · rw [encode, mkCmd, nop]
  · rw [encode, mkCmd, init]
  · rw [encode, mkCmd, acquire]
  · rw [encode, mkCmd, op_eq_three_of_ne _ nop init acquire]

theorem encode_decodeWrite (t : Txn) : encode (decodeWrite t) = .bus (mkTxn true (Txn.addr t) (Txn.wdata t)) := by
  unfold decodeWrite
  split_ifs with cmd ctrl status data
  · rw [encode_decodeCommand, cmd]
  · rw [encode, ctrl]
  · rw [encode, status]
  · rw [encode, data]
  · rw [encode]

/-- Every code is the code of the phase it stands for: none is reserved (R59). -/
theorem code_ofCode : ∀ c : BitVec 3, (Phase.ofCode c).code = c := by decide

theorem encode_op (q : Phase) : encode q.op = .phase q.code := by cases q <;> rfl

theorem encode_decode (e : Slot) : encode (decode e) = e := by
  cases e with
  | bus t =>
    cases we : Txn.we t with
    | false => rw [decode_read we, encode_decodeRead, ← we, mkTxn_fields]
    | true => rw [decode_write we, encode_decodeWrite, ← we, mkTxn_fields]
  | idle => rfl
  | phase c => rw [decode, encode_op, code_ofCode]

theorem decodeRead_wf (t : Txn) : (decodeRead t).wf = true := by
  unfold decodeRead
  split_ifs with cmd ctrl status data
  case neg => exact reservedAddr_of_ne _ cmd ctrl status data
  all_goals rfl

theorem decodeWrite_wf (t : Txn) : (decodeWrite t).wf = true := by
  unfold decodeWrite
  split_ifs with cmd ctrl status data
  case neg => exact reservedAddr_of_ne _ cmd ctrl status data
  · unfold decodeCommand
    split_ifs <;> rfl
  all_goals rfl

theorem decode_wf (e : Slot) : (decode e).wf = true := by
  cases e with
  | bus t =>
    cases we : Txn.we t with
    | false => rw [decode_read we]; exact decodeRead_wf t
    | true => rw [decode_write we]; exact decodeWrite_wf t
  | idle => rfl
  | phase c => rw [decode]; cases Phase.ofCode c <;> rfl

/-- Settles O2: `decode_wf` and `encode_decode`, which rests on a word being its three fields (`mkTxn_fields`). -/
theorem encodeOfDecodeIsTheWord : Obligations.EncodeOfDecodeIsTheWord := fun e => ⟨decode_wf e, encode_decode e⟩

/-! ## One row for every word -/

theorem rowIndex_lt (i : Instr) : i.rowIndex < 22 := by
  cases i <;> simp only [Instr.rowIndex] <;> decide

/-- The family `EncodesInItsRow` as one statement: every row of the table accepts what its instructions encode to. -/
theorem row_accepts_encode (i : Instr) : EncodesInItsRow.Statement i := by
  cases i with
  | rdCmd dc => exact EncodesInItsRow.rdCmd dc
  | rdCtrl dc => exact EncodesInItsRow.rdCtrl dc
  | rdStatus dc => exact EncodesInItsRow.rdStatus dc
  | rdData dc => exact EncodesInItsRow.rdData dc
  | rdRsvd a dc => exact EncodesInItsRow.rdRsvd a dc
  | cmdNop dc => exact EncodesInItsRow.cmdNop dc
  | cmdInit dc => exact EncodesInItsRow.cmdInit dc
  | cmdAcquire dc => exact EncodesInItsRow.cmdAcquire dc
  | cmdRsvd dc => exact EncodesInItsRow.cmdRsvd dc
  | wrCtrl d => exact EncodesInItsRow.wrCtrl d
  | wrStatus d => exact EncodesInItsRow.wrStatus d
  | wrData d => exact EncodesInItsRow.wrData d
  | wrRsvd a d => exact EncodesInItsRow.wrRsvd a d
  | busIdle => exact EncodesInItsRow.busIdle
  | phaseIdle => exact EncodesInItsRow.phaseIdle
  | phasePowerup => exact EncodesInItsRow.phasePowerup
  | phaseStart => exact EncodesInItsRow.phaseStart
  | phaseWaitAckLo => exact EncodesInItsRow.phaseWaitAckLo
  | phaseWaitAckHi => exact EncodesInItsRow.phaseWaitAckHi
  | phaseWaitDataLo => exact EncodesInItsRow.phaseWaitDataLo
  | phaseWaitBitHi => exact EncodesInItsRow.phaseWaitBitHi
  | phaseWaitBitLo => exact EncodesInItsRow.phaseWaitBitLo

/-- Whether two rows of the table agree on the bits that both of them look at. -/
def TableRow.overlaps : TableRow → TableRow → Bool
  | .bus m k, .bus m' k' => decide (m &&& k' = m' &&& k)
  | .noWord, .noWord => true
  | .phase m k, .phase m' k' => decide (m &&& k' = m' &&& k)
  | _, _ => false

/-- Two patterns that one word matches agree where both masks look. -/
theorem patterns_agree {w : Nat} {x m k m' k' : BitVec w} (matched : x &&& k = m) (matched' : x &&& k' = m') :
    m &&& k' = m' &&& k := by
  rw [← matched, ← matched', BitVec.and_assoc, BitVec.and_assoc, BitVec.and_comm k]

/-- Two rows that accept the same thing overlap. -/
theorem TableRow.overlaps_of_accepts {r r' : TableRow} {e : Slot} (h : r.accepts e = true)
    (h' : r'.accepts e = true) : r.overlaps r' = true := by
  match r, r', e, h, h' with
  | .bus _ _, .bus _ _, .bus _, h, h' =>
    exact decide_eq_true (patterns_agree (of_decide_eq_true h) (of_decide_eq_true h'))
  | .noWord, .noWord, .idle, _, _ => rfl
  | .phase _ _, .phase _ _, .phase _, h, h' =>
    exact decide_eq_true (patterns_agree (of_decide_eq_true h) (of_decide_eq_true h'))

/-- Any two rows of opcode_table.json differ in a bit that both of them look at. -/
theorem rows_overlap_only_themselves : ∀ j < 22, ∀ k < 22,
    (opcodeTable.getD j .noWord).overlaps (opcodeTable.getD k .noWord) = true → j = k := by decide

/-- The row of the decoded instruction accepts the word it was decoded from. -/
theorem row_accepts (e : Slot) : (opcodeTable.getD (decode e).rowIndex .noWord).accepts e = true := by
  have accepts := row_accepts_encode (decode e) (decode_wf e)
  rwa [encode_decode] at accepts

theorem row_accepts_iff (e : Slot) {k : Nat} (row : k < 22) :
    (opcodeTable.getD k .noWord).accepts e = true ↔ k = (decode e).rowIndex := by
  constructor
  · intro accepts
    exact rows_overlap_only_themselves k row _ (rowIndex_lt _) (TableRow.overlaps_of_accepts accepts (row_accepts e))
  · rintro rfl
    exact row_accepts e

/-- The read half of the map, register by register (R57). -/
theorem decodeRead_rows (t : Txn) :
    (Txn.addr t = 0 → decodeRead t = .rdCmd (Txn.wdata t)) ∧
    (Txn.addr t = 1 → decodeRead t = .rdCtrl (Txn.wdata t)) ∧
    (Txn.addr t = 2 → decodeRead t = .rdStatus (Txn.wdata t)) ∧
    (Txn.addr t = 3 → decodeRead t = .rdData (Txn.wdata t)) ∧
    (4 ≤ (Txn.addr t).toNat → decodeRead t = .rdRsvd (Txn.addr t) (Txn.wdata t)) := by
  refine ⟨?_, ?_, ?_, ?_, decodeRead_reserved⟩ <;> intro addr <;> simp [decodeRead, addr]

/-- The commands of the map, by OP (R54, R57). -/
theorem decodeCommand_rows (t : Txn) :
    (Txn.op t = 0 → decodeCommand t = .cmdNop (Txn.opIgnored t)) ∧
    (Txn.op t = 1 → decodeCommand t = .cmdInit (Txn.opIgnored t)) ∧
    (Txn.op t = 2 → decodeCommand t = .cmdAcquire (Txn.opIgnored t)) ∧
    (Txn.op t = 3 → decodeCommand t = .cmdRsvd (Txn.opIgnored t)) := by
  refine ⟨?_, ?_, ?_, ?_⟩ <;> intro op <;> simp [decodeCommand, op]

/-- The rest of the write half of the map (R57). -/
theorem decodeWrite_rows (t : Txn) :
    (Txn.addr t = 1 → decodeWrite t = .wrCtrl (Txn.wdata t)) ∧
    (Txn.addr t = 2 → decodeWrite t = .wrStatus (Txn.wdata t)) ∧
    (Txn.addr t = 3 → decodeWrite t = .wrData (Txn.wdata t)) ∧
    (4 ≤ (Txn.addr t).toNat → decodeWrite t = .wrRsvd (Txn.addr t) (Txn.wdata t)) := by
  refine ⟨?_, ?_, ?_, decodeWrite_reserved⟩ <;> intro addr <;> simp [decodeWrite, addr]

/-- Settles O3: the two halves of the map by their rows; one row accepts a word because it accepts what its instructions
encode to (`row_accepts`), and no other does because no two rows overlap. -/
theorem opcodeMapDecodesEveryWordToOneRow : Obligations.OpcodeMapDecodesEveryWordToOneRow := by
  unfold Obligations.OpcodeMapDecodesEveryWordToOneRow
  refine ⟨fun p => ⟨decode_slot_unselected, fun selected => ?_⟩, fun t read => ?_, fun t write => ?_,
    fun e k row => row_accepts_iff e row⟩
  · rw [Pins.slot, if_pos selected]
    rfl
  · rw [decode_read read]
    exact decodeRead_rows t
  · obtain ⟨nop, init, acquire, reserved⟩ := decodeCommand_rows t
    rw [decode_write write]
    have command (cmd : Txn.addr t = 0) : decodeWrite t = decodeCommand t := if_pos cmd
    exact ⟨fun cmd op => (command cmd).trans (nop op), fun cmd op => (command cmd).trans (init op),
      fun cmd op => (command cmd).trans (acquire op), fun cmd op => (command cmd).trans (reserved op),
      decodeWrite_rows t⟩

/-! ## Words and codes written out in the spec -/

/-- Settles O5: each word is decoded by evaluation. -/
theorem wordsOfTheSpecDecode : Obligations.WordsOfTheSpecDecode := by
  unfold Obligations.WordsOfTheSpecDecode
  decide

namespace Machine

/-- A read shows of the phase only whether it is IDLE (R18, R25). -/
theorem Block.regRead_withPhase {b : Block} (busy : b.phase ≠ .idle) {q : Phase} (busy' : q ≠ .idle)
    (a : BitVec 3) : ({ b with phase := q } : Block).regRead a = b.regRead a := by
  have sameBusy : ({ b with phase := q } : Block).busy = b.busy :=
    ((Block.busy_iff _).mpr busy').trans ((Block.busy_iff b).mpr busy).symm
  have status : ({ b with phase := q } : Block).statusWord = b.statusWord := by
    rw [Block.statusWord, sameBusy, Block.statusWord]
  rw [Block.regRead, status, Block.regRead]
  rfl

/-- Settles O4: the codes as tabled, `code_ofCode` for every code's phase, and `Block.regRead_withPhase`. -/
theorem phaseCodesAreTheEightOfTheTable : Obligations.PhaseCodesAreTheEightOfTheTable := by
  unfold Obligations.PhaseCodesAreTheEightOfTheTable
  exact ⟨rfl, rfl, rfl, rfl, rfl, rfl, rfl, rfl, fun c => ⟨Phase.ofCode c, code_ofCode c, rfl⟩,
    fun _ _ a busy busy' => Block.regRead_withPhase busy busy' a⟩

end Machine
end Sys2Proof
end

section
/-! PROOFS. The writes of CTRL and STATUS (R55, R56), and safety after one reset (R132). -/

namespace Sys2Proof.Machine

/-- Settles O11: the WR_CTRL arm of `exec_eq`. -/
theorem wrCtrlWritesIeOnly : Obligations.WrCtrlWritesIeOnly := by
  unfold Obligations.WrCtrlWritesIeOnly
  intro s d
  exact exec_eq (.wrCtrl d) s

/-- A flag under W1C: cleared where the bit is 1, kept where it is 0. -/
theorem w1c_eq_ite (flag bit : Bool) : (flag && !bit) = if bit then false else flag := by
  cases bit <;> simp

/-- Settles O12: the WR_STATUS arm of `exec_eq`, each flag by `w1c_eq_ite`. -/
theorem wrStatusClearsDoneAndDropByTheirBits : Obligations.WrStatusClearsDoneAndDropByTheirBits := by
  unfold Obligations.WrStatusClearsDoneAndDropByTheirBits
  intro s d
  rw [exec_eq, effect, w1c_eq_ite, w1c_eq_ite]
  rfl

/-- The invariant holds after every run from a safe state (R132), and the run never stops. -/
theorem State.Safe.after_run {s : State} (safe : s.Safe) (k : Nat) : ∃ t, run k s = .next t ∧ t.Safe := by
  induction k generalizing s with
  | zero => exact ⟨s, rfl, safe⟩
  | succ k ih =>
    have h := step_eq safe.cfg
    rw [run_succ, h, andThen_next]
    exact ih (everyStepKeepsTheInvariant s _ safe h)

/-- Result codes 6 and 7 are out of the invariant's range (R58). -/
theorem Block.Inv.result_ne {c : Params} {b : Block} (inv : b.Inv c) : b.result ≠ 6 ∧ b.result ≠ 7 := by
  have range := inv.result_le
  constructor <;> intro code <;> simp [code] at range

/-- A cycle with reset makes any state of a sound configuration safe (R129). -/
theorem step_reset_safe {s : State} {p : Pins} {rest : List Pins} (sound : s.cfg.wf = true)
    (listed : s.inputs = p :: rest) (rst : p.rst = true) : ∃ t, step s = .next t ∧ t.Safe := by
  obtain ⟨t, ht, blk, -⟩ := step_listed sound listed
  obtain ⟨-, cfg, -⟩ := step_next ht
  rw [nextBlock_reset _ _ rst] at blk
  exact ⟨t, ht, cfg ▸ sound, by rw [cfg, blk]; exact Block.inv_reset sound⟩

/-- Settles O53: the reset cycle leaves a safe state (`step_reset_safe`), and every run keeps it
(`State.Safe.after_run`). -/
theorem afterOneResetEveryRunIsSafe : Obligations.AfterOneResetEveryRunIsSafe := by
  unfold Obligations.AfterOneResetEveryRunIsSafe
  intro s p rest k sound listed rst
  obtain ⟨t, ht, safe⟩ := step_reset_safe sound listed rst
  obtain ⟨u, hu, safe'⟩ := safe.after_run k
  exact ⟨u, by rw [run_succ, ht, andThen_next, hu], safe', safe'.blk.result_ne⟩

end Sys2Proof.Machine
end

section
/-! PROOFS. The host's commands (40_host_commands.md): the reads, the transactions that change nothing, and what each
command does while busy and while idle; and the cycle that runs a transaction beside the sequencer (R64). -/

namespace Sys2Proof.Machine

/-! ## Reads, and the transactions without an effect -/

/-- Settles O8: the five read rows by `exec_eq`; CTRL's word is IE as a number by `Block.ctrlWord_eq`. -/
theorem readsAnswerTheirRegisterAndChangeNothing : Obligations.ReadsAnswerTheirRegisterAndChangeNothing := by
  unfold Obligations.ReadsAnswerTheirRegisterAndChangeNothing
  intro s dc a
  have ctrl : exec (.rdCtrl dc) s = .next { s with out := { s.out with busRdata := s.blk.ctrlWord } } := exec_eq _ s
  rw [Block.ctrlWord_eq] at ctrl
  exact ⟨exec_eq (.rdCmd dc) s, ctrl, exec_eq (.rdStatus dc) s, exec_eq (.rdData dc) s, exec_rdRsvd s a dc⟩

/-- Settles O14: the rows WR_DATA, CMD_NOP and BUS_IDLE of `exec_eq`, whose `effect` is the identity. -/
theorem dataWriteNopAndIdleBusChangeNothing : Obligations.DataWriteNopAndIdleBusChangeNothing := by
  unfold Obligations.DataWriteNopAndIdleBusChangeNothing
  intro s d c
  exact ⟨exec_eq (.wrData d) s, exec_eq (.cmdNop c) s, exec_eq .busIdle s⟩

/-! ## Commands -/

/-- A command drives no output: what it does is on the block's registers. -/
theorem exec_of_isCommand {i : Instr} (command : isCommand i = true) (s : State) :
    exec i s = .next { s with blk := effect s.cfg i s.blk } := by
  rw [exec_eq]
  cases i with
  | cmdInit _ | cmdAcquire _ | cmdRsvd _ => rfl
  | _ => simp [isCommand] at command

/-- While busy every command is dropped, and DROP tells so (R74). -/
theorem effect_command_busy (c : Params) {i : Instr} {b : Block} (command : isCommand i = true)
    (busy : b.phase ≠ .idle) : effect c i b = { b with drop := true } := by
  have hb : b.busy = true := b.busy_iff.mpr busy
  cases i with
  | cmdInit _ | cmdAcquire _ | cmdRsvd _ => exact Block.command_busy hb
  | _ => simp [isCommand] at command

/-- Settles O15: the gate drops all three commands alike (`effect_command_busy`). -/
theorem commandWhileBusyOnlySetsDrop : Obligations.CommandWhileBusyOnlySetsDrop := by
  unfold Obligations.CommandWhileBusyOnlySetsDrop
  intro s c busy
  have dropped : ∀ i, isCommand i = true → exec i s = .next { s with blk := { s.blk with drop := true } } := by
    intro i command
    rw [exec_of_isCommand command, effect_command_busy s.cfg command busy]
  exact ⟨dropped _ rfl, dropped _ rfl, dropped _ rfl⟩

section
variable {s : State} (dc : BitVec 30)

/-- INIT while idle starts an acquisition (R76). -/
theorem exec_cmdInit_idle (idle : s.blk.phase = .idle) :
    exec (.cmdInit dc) s = .next { s with blk := s.blk.startAcq s.cfg true } := by
  rw [exec_of_isCommand rfl, effect, Block.command_idle (s.blk.busy_eq_false_iff.mpr idle)]

/-- ACQUIRE while idle starts one if READY is set (R77). -/
theorem exec_cmdAcquire_ready (idle : s.blk.phase = .idle) (ready : s.blk.ready = true) :
    exec (.cmdAcquire dc) s = .next { s with blk := s.blk.startAcq s.cfg false } := by
  rw [exec_of_isCommand rfl, effect, Block.command_idle (s.blk.busy_eq_false_iff.mpr idle), Block.acquire_ready ready]

/-- ACQUIRE while idle ends at once if READY is not set (R77). -/
theorem exec_cmdAcquire_unready (idle : s.blk.phase = .idle) (unready : s.blk.ready = false) :
    exec (.cmdAcquire dc) s = .next { s with blk := s.blk.finish .notReady s.blk.sr } := by
  rw [exec_of_isCommand rfl, effect, Block.command_idle (s.blk.busy_eq_false_iff.mpr idle),
    Block.acquire_notReady unready]

/-- The reserved command while idle ends at once (R78). -/
theorem exec_cmdRsvd_idle (idle : s.blk.phase = .idle) :
    exec (.cmdRsvd dc) s = .next { s with blk := s.blk.finish .invalidArg s.blk.sr } := by
  rw [exec_of_isCommand rfl, effect, Block.command_idle (s.blk.busy_eq_false_iff.mpr idle)]

end

/-- `startAcq` for an acquisition that begins with the power-up wait: the line stays released (R79, R81). -/
theorem Block.startAcq_powerup {p : Params} {init : Bool} (b : Block) (waits : powersUp p init = true) :
    b.startAcq p init = { b with
      done := false, isInit := init, sr := 0, bitidx := 0, cnt := 0, lowDur := 0, presc := 0,
      phase := .powerup, dqOe := false } := by
  simp [startAcq, waits]

/-- `startAcq` for an acquisition that begins with the start signal: the line is driven (R79, R82). -/
theorem Block.startAcq_start {p : Params} {init : Bool} (b : Block) (atOnce : powersUp p init = false) :
    b.startAcq p init = { b with
      done := false, isInit := init, sr := 0, bitidx := 0, cnt := 0, lowDur := 0, presc := 0,
      phase := .start, dqOe := true } := by
  simp [startAcq, atOnce]

/-- Settles O16: the accepted commands run `startAcq`, with the power-up wait or without it. -/
theorem acceptedCommandStartsAnAcquisition : Obligations.AcceptedCommandStartsAnAcquisition := by
  unfold Obligations.AcceptedCommandStartsAnAcquisition
  intro s c idle
  refine ⟨fun wait => ?_, fun noWait => ?_, fun ready => ?_⟩
  · have waits : powersUp s.cfg true = true := by simp [powersUp, wait]
    rw [exec_cmdInit_idle c idle, Block.startAcq_powerup _ waits]
  · have atOnce : powersUp s.cfg true = false := by simp [powersUp, noWait]
    rw [exec_cmdInit_idle c idle, Block.startAcq_start _ atOnce]
  · have atOnce : powersUp s.cfg false = false := rfl
    rw [exec_cmdAcquire_ready c idle ready, Block.startAcq_start _ atOnce]

/-- A finish that ends no acquisition keeps READY (R108). -/
theorem Block.readyAfter_immediate {res : Result} (b : Block) (immediate : endsAcquisition res = false) :
    b.readyAfter res = b.ready := by
  simp [readyAfter, immediate]

/-- Settles O17: the `finish` of NOT_READY clears DATA and keeps READY. -/
theorem acquireWithoutReadyFinishesNotReady : Obligations.AcquireWithoutReadyFinishesNotReady := by
  unfold Obligations.AcquireWithoutReadyFinishesNotReady
  intro s c idle unready
  rw [exec_cmdAcquire_unready c idle unready, Block.finish, Block.readyAfter_immediate _ rfl]
  rfl

/-- Settles O18: the `finish` of INVALID_ARG keeps DATA and READY. -/
theorem reservedCommandFinishesInvalidArg : Obligations.ReservedCommandFinishesInvalidArg := by
  unfold Obligations.ReservedCommandFinishesInvalidArg
  intro s c idle
  rw [exec_cmdRsvd_idle c idle, Block.finish, Block.readyAfter_immediate _ rfl]
  rfl

/-! ## The cycle that runs a transaction -/

/-- The start of a cycle with a listed input and no reset: the outputs are driven from `S_n` (R35, R37, R39). -/
theorem State.begin_listed {s : State} {p : Pins} {rest : List Pins} (listed : s.inputs = p :: rest)
    (rst : p.rst = false) :
    s.begin p = { s with
      inputs := rest, cycle := s.cycle + 1,
      out := { busRdata := 0, irq := s.blk.ie && s.blk.done, dqOePin := s.blk.dqOe } } := by
  simp [State.begin, listed, rst, Block.irq, Block.dqOePin]

/-- A cycle without reset is SEQ's part on what HOST's part left, and the synchroniser (R64, R34). -/
theorem step_of_host {s t : State} {p : Pins} {rest : List Pins} (sound : s.cfg.wf = true)
    (listed : s.inputs = p :: rest) (rst : p.rst = false) (host : exec (decode p.slot) (s.begin p) = .next t) :
    step s = andThen (sequence s.blk t) fun u => .next (u.setBlk (u.blk.synchronise p.dqI s.blk.sync1)) := by
  simp [step, cycle, cycleWith, sound, State.pins_cons listed, host, rst]

section
variable {b : Block} (t : State)

theorem sequence_idle (idle : b.phase = .idle) : sequence b t = exec .phaseIdle t := by
  have hb : b.busy = false := b.busy_eq_false_iff.mpr idle
  simp [sequence, hb, idle, Phase.op]

theorem sequence_between (busy : b.phase ≠ .idle) (noTick : b.presc ≠ t.cfg.cyclesPerUs - 1) :
    sequence b t = .next (t.setBlk (t.blk.advancePresc t.cfg b.presc)) := by
  have hb : b.busy = true := b.busy_iff.mpr busy
  simp [sequence, hb, Block.tick, noTick]

theorem sequence_tick (busy : b.phase ≠ .idle) (tick : b.presc = t.cfg.cyclesPerUs - 1) :
    sequence b t =
      andThen (exec b.phase.op t) fun u => .next (u.setBlk (u.blk.advancePresc u.cfg b.presc)) := by
  have hb : b.busy = true := b.busy_iff.mpr busy
  have ht : b.tick t.cfg = true := (b.tick_iff t.cfg).mpr ⟨busy, tick⟩
  simp [sequence, hb, ht]

end

/-- At a tick the prescaler goes back to 0 (R33). -/
theorem Block.advancePresc_tick {c : Params} (sound : c.wf = true) {n : Nat} (tick : n = c.cyclesPerUs - 1)
    (b : Block) : b.advancePresc c n = { b with presc := 0 } := by
  rw [advancePresc, tick, Nat.sub_add_cancel (Params.cyclesPerUs_pos sound), Nat.mod_self]

/-- Settles O6: `step_of_host`, with SEQ's part in an idle cycle, between ticks and at a tick. -/
theorem stepRunsTheDecodedInstruction : Obligations.StepRunsTheDecodedInstruction := by
  unfold Obligations.StepRunsTheDecodedInstruction
  intro s p rest t sound listed rst host
  have cfg : t.cfg = s.cfg := (exec_frame host).1
  rw [← State.begin_listed listed rst] at host
  rw [step_of_host sound listed rst host]
  refine ⟨fun idle u seq => ?_, fun busy noTick => ?_, fun busy tick u seq => ?_⟩
  · rw [sequence_idle t idle, seq]
    rfl
  · rw [← cfg] at noTick ⊢
    rw [sequence_between t busy noTick]
    rfl
  · have cfg' : u.cfg = s.cfg := (exec_frame seq).1.trans cfg
    have wraps : u.blk.advancePresc u.cfg s.blk.presc = { u.blk with presc := 0 } :=
      Block.advancePresc_tick (cfg' ▸ sound) (cfg' ▸ tick) u.blk
    rw [sequence_tick t busy (cfg ▸ tick), seq, andThen_next, wraps]
    rfl

end Sys2Proof.Machine
end

section
/-! PROOFS. The operations of the start handshake, one tick each (41_start_handshake.md, R81 to R89): the idle phase,
the two phases of fixed length, and the waits, which all follow one scheme (R83) and differ in what comes after
(`Block.afterWait`). -/

namespace Sys2Proof.Machine

/-- A phase's operation, from what it makes of the block's registers. -/
theorem exec_op_of_effect {q : Phase} {s : State} {b : Block} (h : effect s.cfg q.op s.blk = b) :
    exec q.op s = .next { s with blk := b } := by
  rw [exec_op_eq, h]
  rfl

/-- Settles O20: the PHASE_IDLE arm of `effect`. -/
theorem idleOperationClearsThePrescalerOnly : Obligations.IdleOperationClearsThePrescalerOnly := by
  unfold Obligations.IdleOperationClearsThePrescalerOnly
  intro s
  exact exec_op_of_effect (q := .idle) rfl

/-! ## The phases of fixed length -/

theorem Block.count_ends {length : Nat} {b : Block} (last : b.cnt + 1 = length) (onEnd : Block → Block) :
    b.count length onEnd = onEnd { b with cnt := 0 } := by simp [count, last]

theorem Block.count_counts {length : Nat} {b : Block} (below : b.cnt + 1 ≠ length) (onEnd : Block → Block) :
    b.count length onEnd = { b with cnt := b.cnt + 1 } := by simp [count, below]

/-- Settles O21: both phases are `Block.count`, at its end or before it. -/
theorem powerupAndStartCountTheirTicks : Obligations.PowerupAndStartCountTheirTicks := by
  unfold Obligations.PowerupAndStartCountTheirTicks
  intro s
  refine ⟨fun last => exec_op_of_effect (q := .powerup) ?_, fun below => exec_op_of_effect (q := .powerup) ?_,
    fun last => exec_op_of_effect (q := .start) ?_, fun below => exec_op_of_effect (q := .start) ?_⟩ <;>
    rw [Phase.op, effect]
  · rw [Block.count_ends last]
  · rw [Block.count_counts below]
  · rw [Block.count_ends last]
  · rw [Block.count_counts below]

/-! ## The waits -/

/-- What follows the wait phase `q` when its level is seen with duration `j` (R84 to R86, R93, R94). -/
def Block.afterWait (q : Phase) (j : Nat) (b : Block) : Block :=
  match q with
  | .waitAckLo => { b with phase := .waitAckHi }
  | .waitAckHi => { b with phase := .waitDataLo }
  | .waitDataLo => { b with phase := .waitBitHi, bitidx := 0 }
  | .waitBitHi => { b with lowDur := j, phase := .waitBitLo }
  | .waitBitLo => b.bitDone j
  | _ => b

/-- The operation of every wait phase is `Wait` with the phase's level, its budget and what comes after (R83). -/
theorem effect_wait (c : Params) (b : Block) {q : Phase} {level : Bool} (waits : awaited q = some level) :
    effect c q.op b = b.wait level (c.ticksOf q) (Block.afterWait q) := by
  cases q with
  | idle | powerup | start => cases waits
  | waitAckLo | waitAckHi | waitDataLo | waitBitHi | waitBitLo => cases waits; rfl

/-- The finish of a timeout, register by register (R87, R106 to R108). -/
theorem Block.finish_timeout (b : Block) : b.finish .timeout b.sr = b.timedOut := by
  cases isInit : b.isInit <;>
    simp [finish, timedOut, readyAfter, humAfter, tempAfter, endsAcquisition, resultCode, isInit]

section
variable {c : Params} {b : Block} {q : Phase} {level : Bool} (waits : awaited q = some level)
include waits

theorem effect_wait_seen (seen : b.sync2 = level) :
    effect c q.op b = Block.afterWait q (b.cnt + 1) { b with cnt := 0 } := by
  rw [effect_wait c b waits, Block.wait_seen seen]

theorem effect_wait_timesOut (unseen : b.sync2 = !level) (spent : c.ticksOf q ≤ b.cnt + 1) :
    effect c q.op b = b.timedOut := by
  rw [effect_wait c b waits, Block.wait_timeout (by simp [unseen]) spent, Block.finish_timeout]

theorem effect_wait_counts (unseen : b.sync2 = !level) (below : b.cnt + 1 < c.ticksOf q) :
    effect c q.op b = { b with cnt := b.cnt + 1 } := by
  rw [effect_wait c b waits, Block.wait_counts (by simp [unseen]) below]

end

/-- Settles O22: each of the three waits sees its level, times out, or counts. -/
theorem acknowledgeWaitsSucceedCountOrTimeOut : Obligations.AcknowledgeWaitsSucceedCountOrTimeOut := by
  unfold Obligations.AcknowledgeWaitsSucceedCountOrTimeOut
  intro s
  refine ⟨fun seen => ?_, fun unseen spent => ?_, fun unseen below => ?_, fun seen => ?_, fun unseen spent => ?_,
    fun unseen below => ?_, fun seen => ?_, fun unseen spent => ?_, fun unseen below => ?_⟩
  · exact exec_op_of_effect (q := .waitAckLo) (effect_wait_seen rfl seen)
  · exact exec_op_of_effect (q := .waitAckLo) (effect_wait_timesOut rfl unseen spent)
  · exact exec_op_of_effect (q := .waitAckLo) (effect_wait_counts rfl unseen below)
  · exact exec_op_of_effect (q := .waitAckHi) (effect_wait_seen rfl seen)
  · exact exec_op_of_effect (q := .waitAckHi) (effect_wait_timesOut rfl unseen spent)
  · exact exec_op_of_effect (q := .waitAckHi) (effect_wait_counts rfl unseen below)
  · exact exec_op_of_effect (q := .waitDataLo) (effect_wait_seen rfl seen)
  · exact exec_op_of_effect (q := .waitDataLo) (effect_wait_timesOut rfl unseen spent)
  · exact exec_op_of_effect (q := .waitDataLo) (effect_wait_counts rfl unseen below)

end Sys2Proof.Machine
end

section
/-! PROOFS. A wait over the samples of the sampler (R63, R83): while its level is not seen, up to its level, and up to
its timeout; by the block's registers after the ticks of a sample script (`Block.ticked`). -/

namespace Sys2Proof.Machine

/-- The block's registers after the ticks of a sample script (R63, R88). -/
def Block.ticked (c : Params) (samples : List Bool) (b : Block) : Block :=
  samples.foldl (fun b v => effect c b.phase.op { b with sync2 := v }) b

/-- A sample script moves the block's registers and nothing else. -/
theorem sampleTicks_eq (samples : List Bool) (s : State) :
    sampleTicks samples s = .next (s.setBlk (s.blk.ticked s.cfg samples)) := by
  induction samples generalizing s with
  | nil => rfl
  | cons v samples ih => rw [sampleTicks, sampleTick_eq, andThen_next, ih]; rfl

theorem Block.ticked_append (c : Params) (xs ys : List Bool) (b : Block) :
    b.ticked c (xs ++ ys) = (b.ticked c xs).ticked c ys := List.foldl_append

theorem Block.ticked_snoc (c : Params) (samples : List Bool) (v : Bool) (b : Block) :
    b.ticked c (samples ++ [v]) =
      effect c (b.ticked c samples).phase.op { b.ticked c samples with sync2 := v } := ticked_append c samples [v] b

/-- A counter at 0 is not changed by writing 0 to it, as the end of a phase does. -/
theorem Block.withCnt_zero {b : Block} (fresh : b.cnt = 0) : ({ b with cnt := 0 } : Block) = b := by rw [← fresh]

/-! ## A wait -/

section
variable {c : Params} {b : Block} {q : Phase} {level : Bool} (waits : awaited q = some level) (inPhase : b.phase = q)
  (fresh : b.cnt = 0)
include waits inPhase fresh

/-- While the level is not seen and the budget lasts, a wait counts its ticks. -/
theorem Block.ticked_unseen {m : Nat} (below : m < c.ticksOf q) :
    b.ticked c (List.replicate m (!level)) = { b with cnt := m, sync2 := if m = 0 then b.sync2 else !level } := by
  induction m with
  | zero => exact (withCnt_zero fresh).symm
  | succ m ih =>
    rw [List.replicate_succ', ticked_snoc, ih (by omega), inPhase, effect_wait_counts waits rfl below]
    rfl

/-- The level first seen at tick `j` ends the wait there with duration `j`. -/
theorem Block.ticked_seenAt {j : Nat} (onTime : 1 ≤ j ∧ j ≤ c.ticksOf q) :
    b.ticked c (seenAt level j) = afterWait q j { b with sync2 := level } := by
  obtain ⟨m, rfl⟩ := Nat.exists_eq_add_of_le' onTime.1
  rw [seenAt, Nat.add_sub_cancel, ticked_snoc, ticked_unseen waits inPhase fresh onTime.2, inPhase,
    effect_wait_seen waits rfl, ← fresh]

/-- The level never seen, the wait times out at the last tick of its budget. -/
theorem Block.ticked_neverSeen (budget : 1 ≤ c.ticksOf q) :
    b.ticked c (neverSeen level (c.ticksOf q)) = ({ b with sync2 := !level } : Block).timedOut := by
  obtain ⟨m, last⟩ := Nat.exists_eq_add_of_le' budget
  rw [neverSeen, last, List.replicate_succ', ticked_snoc, ticked_unseen waits inPhase fresh (by omega), inPhase,
    effect_wait_timesOut waits rfl last.le]
  rfl

end

/-- The end of a data bit counts it and shifts it in, whether it is the last or not (R94, R96), and keeps `cnt` at 0. -/
theorem Block.bitDone_bit (h : Nat) (b : Block) :
    (b.bitDone h).sr = shiftIn b.sr (bitval h b.lowDur) ∧ (b.bitDone h).bitidx = b.bitidx + 1 ∧
      (b.cnt = 0 → (b.bitDone h).cnt = 0) := by
  rcases b.bitDone_cases h with ⟨last, e⟩ | ⟨-, e⟩ <;> rw [e]
  · rw [last]
    rcases Block.validate_cases (shiftIn b.sr (bitval h b.lowDur))
      { b with sr := shiftIn b.sr (bitval h b.lowDur), bitidx := nbits } with ⟨-, e⟩ | ⟨-, e⟩ <;> rw [e] <;>
      exact ⟨rfl, rfl, fun _ => rfl⟩
  · exact ⟨rfl, rfl, id⟩

/-- What follows a wait begins with a cleared counter. -/
theorem Block.afterWait_cnt (q : Phase) (j : Nat) {b : Block} (fresh : b.cnt = 0) : (b.afterWait q j).cnt = 0 := by
  cases q with
  | waitBitLo => exact (b.bitDone_bit j).2.2 fresh
  | _ => exact fresh

/-- Settles O25: `Block.ticked_unseen`, `Block.ticked_seenAt` and `Block.ticked_neverSeen`. -/
theorem waitEndsAtTheFirstAwaitedSample : Obligations.WaitEndsAtTheFirstAwaitedSample := by
  unfold Obligations.WaitEndsAtTheFirstAwaitedSample
  intro s q level waits inPhase fresh budget
  refine ⟨fun m below => ?_, fun j first onTime => ?_, fun samples => ?_⟩
  · rw [sampleTicks_eq, Block.ticked_unseen waits inPhase fresh below]
    rfl
  · rw [sampleTicks_eq, Block.ticked_seenAt waits inPhase fresh ⟨first, onTime⟩]
    refine ⟨_, rfl, Block.afterWait_cnt q j fresh, ?_⟩
    refine ⟨?_, ?_, ?_, ?_, fun isPhase => ?lastPhase⟩
    case lastPhase =>
      obtain ⟨sr, bitidx, -⟩ := Block.bitDone_bit j { s.blk with sync2 := level }
      rw [isPhase]
      exact ⟨sr, bitidx⟩
    all_goals intro isPhase; rw [isPhase]; rfl
  · rw [sampleTicks_eq, sampleTicks_eq, Block.ticked_append, Block.ticked_neverSeen waits inPhase fresh budget]
    rfl

end Sys2Proof.Machine
end

section
/-! PROOFS. A whole acquisition at the sampler (41_start_handshake.md, 42_bit_reception.md): the start signal, whatever
is sampled during it; a data bit; the bits up to the 40th; and these with the three acknowledge waits between. -/

namespace Sys2Proof.Machine

/-! ## The start signal -/

section
variable {c : Params} {b : Block} (inPhase : b.phase = .start) (fresh : b.cnt = 0)
include inPhase fresh

/-- Before the last tick of START only the counter moves, whatever is sampled (R82). -/
theorem Block.ticked_start_counts (samples : List Bool) (below : samples.length < c.startLowUs) :
    ∃ v, b.ticked c samples = { b with cnt := samples.length, sync2 := v } := by
  induction samples using List.reverseRecOn with
  | nil => exact ⟨b.sync2, (withCnt_zero fresh).symm⟩
  | append_singleton samples v ih =>
    rw [List.length_append, List.length_singleton] at below ⊢
    obtain ⟨w, counted⟩ := ih (by omega)
    refine ⟨v, ?_⟩
    rw [ticked_snoc, counted, inPhase, Phase.op, effect, count_counts below.ne]

/-- START releases the line at its last tick and goes on to the first wait (R82). -/
theorem Block.ticked_start {samples : List Bool} (len : samples.length = c.startLowUs) (budget : 1 ≤ c.startLowUs) :
    ∃ v, b.ticked c samples = { b with phase := .waitAckLo, cnt := 0, dqOe := false, sync2 := v } := by
  obtain ⟨before, v, rfl⟩ := (List.eq_nil_or_concat' samples).resolve_left
    (List.length_pos_iff.mp (len ▸ budget))
  rw [List.length_append, List.length_singleton] at len
  obtain ⟨w, counted⟩ := ticked_start_counts inPhase fresh before (c := c) (by omega)
  refine ⟨v, ?_⟩
  rw [ticked_snoc, counted, inPhase, Phase.op, effect, count_ends len]

end

/-! ## The registers at the end of a bit -/

/-- `received`, register by register (R102 to R108). -/
theorem Block.received_eq (f : Frame) (b : Block) :
    b.received f = { b with
      phase := .idle, dqOe := false, cnt := 0, done := true, sr := f, bitidx := 40,
      result := if sum8 f = frameByte f 4 then 1 else 3,
      hum := if sum8 f = frameByte f 4 then f.extractLsb' 24 16 else 0,
      temp := if sum8 f = frameByte f 4 then f.extractLsb' 8 16 else 0,
      ready := if b.isInit then decide (sum8 f = frameByte f 4) else b.ready } := by
  unfold received
  split <;> simp [*]

/-- The validation of a frame with all its bits in leaves what `received` says (R102 to R108). -/
theorem Block.validate_eq_received (f : Frame) (b : Block) :
    ({ b with sr := f, bitidx := nbits } : Block).validate f = b.received f := by
  rw [received_eq, validate, frameValid]
  by_cases valid : sum8 f = frameByte f 4
  · simp [valid, finish, readyAfter, humAfter, tempAfter, endsAcquisition, resultCode, frameHum, frameTemp, nbits]
  · simp [valid, finish, readyAfter, humAfter, tempAfter, endsAcquisition, resultCode, nbits]

theorem Block.bitDone_last {b : Block} (last : b.bitidx + 1 = 40) (h : Nat) :
    b.bitDone h = b.received (shiftIn b.sr (bitval h b.lowDur)) := by
  rcases b.bitDone_cases h with ⟨-, e⟩ | ⟨more, -⟩
  · rw [e, validate_eq_received]
  · exact absurd last more

theorem Block.bitDone_more {b : Block} (more : b.bitidx + 1 ≠ 40) (h : Nat) :
    b.bitDone h = { b with
      sr := shiftIn b.sr (bitval h b.lowDur), bitidx := b.bitidx + 1, phase := .waitBitHi } := by
  rcases b.bitDone_cases h with ⟨last, -⟩ | ⟨-, e⟩
  · exact absurd last more
  · exact e

/-! ## The data phase -/

/-- The samples of one bit end in its `bitDone`, with the low's duration kept (R93, R94). -/
theorem Block.ticked_bitSamples {c : Params} {b : Block} {l h : Nat} (inPhase : b.phase = .waitBitHi)
    (fresh : b.cnt = 0) (low : 1 ≤ l ∧ l ≤ c.toBitHiUs) (high : 1 ≤ h ∧ h ≤ c.toBitLoUs) :
    b.ticked c (bitSamples l h) =
      Block.bitDone h { b with sync2 := false, lowDur := l, phase := .waitBitLo } := by
  rw [bitSamples, ticked_append, ticked_seenAt (q := .waitBitHi) rfl inPhase fresh low,
    ticked_seenAt (q := .waitBitLo) rfl ?phase ?cnt high]
  case phase => rfl
  case cnt => exact fresh
  rfl

/-- The frame `f` with the bits of the given durations shifted in (R95, R96). -/
def bitsShiftedInto (f : Frame) (ds : List (Nat × Nat)) : Frame :=
  ds.foldl (fun f d => shiftIn f (bitval d.2 d.1)) f

theorem bitsShiftedInto_zero (ds : List (Nat × Nat)) : bitsShiftedInto 0 ds = frameOf ds := rfl

/-- The bits that are left of a frame, by induction on them: each but the last leads to the next one's WAIT_BIT_HI, the
last one to the end of the frame (R94, R97). -/
theorem Block.ticked_frameSamples {c : Params} {b : Block} {ds : List (Nat × Nat)} (inPhase : b.phase = .waitBitHi)
    (fresh : b.cnt = 0) (left : b.bitidx + ds.length = 40) (some : ds ≠ [])
    (fit : ∀ d ∈ ds, (1 ≤ d.1 ∧ d.1 ≤ c.toBitHiUs) ∧ (1 ≤ d.2 ∧ d.2 ≤ c.toBitLoUs)) :
    ∃ l, b.ticked c (frameSamples ds) =
      ({ b with sync2 := false, lowDur := l } : Block).received (bitsShiftedInto b.sr ds) := by
  induction ds generalizing b with
  | nil => exact absurd rfl some
  | cons d ds ih =>
    have samples : frameSamples (d :: ds) = bitSamples d.1 d.2 ++ frameSamples ds := List.flatMap_cons
    obtain ⟨low, high⟩ := fit d List.mem_cons_self
    rw [List.length_cons] at left
    rw [samples, ticked_append, ticked_bitSamples inPhase fresh low high]
    by_cases last : ds = []
    · subst last
      refine ⟨d.1, ?_⟩
      rw [bitDone_last ?count, received_eq, received_eq]
      case count => exact left
      rfl
    · have more : 0 < ds.length := List.length_pos_iff.mpr last
      rw [bitDone_more ?count]
      case count => exact (show b.bitidx + 1 < 40 by omega).ne
      obtain ⟨l, rest⟩ := ih (b := { b with
          sync2 := false, lowDur := d.1, phase := .waitBitHi, bitidx := b.bitidx + 1,
          sr := shiftIn b.sr (bitval d.2 d.1) }) rfl fresh (show b.bitidx + 1 + ds.length = 40 by omega) last
        fun e he => fit e (List.mem_cons_of_mem d he)
      refine ⟨l, rest.trans ?_⟩
      rw [received_eq, received_eq]
      rfl

/-! ## The acquisition -/

/-- A whole acquisition, up to the last low's duration (R82 to R86, R93 to R108). -/
theorem Block.ticked_acquisition {c : Params} {b : Block} {ignored : List Bool} {j1 j2 j3 : Nat}
    {ds : List (Nat × Nat)} (inPhase : b.phase = .start) (fresh : b.cnt = 0) (len : ignored.length = c.startLowUs)
    (budget : 1 ≤ c.startLowUs) (ackLo : 1 ≤ j1 ∧ j1 ≤ c.toAckLoUs) (ackHi : 1 ≤ j2 ∧ j2 ≤ c.toAckHiUs)
    (dataLo : 1 ≤ j3 ∧ j3 ≤ c.toDataLoUs) (fit : DurationsFit c ds) :
    ∃ l, b.ticked c (ignored ++ seenAt false j1 ++ seenAt true j2 ++ seenAt false j3 ++ frameSamples ds) =
      ({ b with sync2 := false, lowDur := l } : Block).received (bitsShiftedInto b.sr ds) := by
  obtain ⟨bits, fit⟩ := fit
  obtain ⟨v, start⟩ := ticked_start inPhase fresh len budget
  obtain ⟨l, frame⟩ := ticked_frameSamples (c := c) (ds := ds) (b := { b with
      phase := .waitBitHi, cnt := 0, dqOe := false, bitidx := 0, sync2 := false }) rfl rfl
    (show 0 + ds.length = 40 by omega) (List.length_pos_iff.mp (by omega)) fit
  refine ⟨l, ?_⟩
  rw [ticked_append, ticked_append, ticked_append, ticked_append, start,
    ticked_seenAt (q := .waitAckLo) rfl ?_ ?_ ackLo, ticked_seenAt (q := .waitAckHi) rfl ?_ ?_ ackHi,
    ticked_seenAt (q := .waitDataLo) rfl ?_ ?_ dataLo]
  · refine frame.trans ?_
    rw [received_eq, received_eq]
  all_goals rfl

/-- Settles O32: `Block.ticked_acquisition`, whose registers `Block.received_eq` gives one by one. -/
theorem wholeAcquisitionDecodesTheFrame : Obligations.WholeAcquisitionDecodesTheFrame := by
  unfold Obligations.WholeAcquisitionDecodesTheFrame
  intro s ignored j1 j2 j3 ds inPhase fresh _ cleared len budget ackLo ackHi dataLo fit
  obtain ⟨l, h⟩ := Block.ticked_acquisition inPhase fresh len budget ackLo ackHi dataLo fit
  rw [sampleTicks_eq, h, cleared, bitsShiftedInto_zero, Block.received_eq]
  refine ⟨_, rfl, rfl, rfl, rfl, rfl, rfl, rfl, rfl, rfl, rfl, ?_, rfl⟩
  have lastByte : frameByte (frameOf ds) 4 = (frameOf ds).extractLsb' 0 8 := rfl
  rw [← lastByte]
  by_cases valid : sum8 (frameOf ds) = frameByte (frameOf ds) 4 <;> simp [valid]

end Sys2Proof.Machine
end

section
/-! PROOFS. What is left of an operation (`Block.cyclesLeft`, R128): a tick takes at least one tick off it or finishes,
a cycle takes at least one cycle off it, and an accepted command begins with the bound. -/

namespace Sys2Proof.Machine

section
variable {c : Params} {b t : Block}

/-- A busy operation has at least the running tick left: the count is below the phase's budget. -/
theorem Block.Inv.ticksLeft_pos (inv : b.Inv c) (busy : b.phase ≠ .idle) : 1 ≤ b.ticksLeft c := by
  have room := inv.cnt_lt busy
  unfold Block.ticksLeft
  cases inPhase : b.phase <;> simp only [inPhase, Params.ticksOf] at room ⊢
  case idle => exact absurd inPhase busy
  all_goals omega

/-- A tick of a phase that stays counts down. -/
theorem Block.ticksLeft_counted (room : b.cnt < c.ticksOf b.phase) :
    ({ b with cnt := b.cnt + 1 } : Block).ticksLeft c < b.ticksLeft c := by
  unfold Block.ticksLeft
  cases inPhase : b.phase <;> simp only [inPhase, Params.ticksOf] at room ⊢ <;> omega

theorem succ_mul_bitBudget (c : Params) (k : Nat) :
    (k + 1) * c.bitBudget = c.toBitHiUs + c.toBitLoUs + k * c.bitBudget := by
  rw [Nat.succ_mul, Params.bitBudget, Nat.add_comm]

/-- A tick finishes the operation or leaves fewer ticks of it: what follows a phase takes at most what was reserved for
it (R142). -/
theorem TickDoes.ticksLeft_lt (h : TickDoes c b t) (inv : b.Inv c) (busy : b.phase ≠ .idle) :
    t.phase = .idle ∨ t.ticksLeft c < b.ticksLeft c := by
  have room := inv.cnt_lt busy
  cases h with
  | counted _ => exact .inr (Block.ticksLeft_counted room)
  | frameEnds _ _ _ _ _ | timesOut _ _ => exact .inl rfl
  | powerupEnds inPhase _ | startEnds inPhase _ | ackLoSeen inPhase _ | ackHiSeen inPhase _ | bitRises inPhase _ =>
    simp only [inPhase, Params.ticksOf] at room
    simp only [Block.ticksLeft, inPhase]
    omega
  | dataLoSeen inPhase _ =>
    have bits := succ_mul_bitBudget c 39
    simp only [inPhase, Params.ticksOf] at room
    simp only [Block.ticksLeft, inPhase]
    omega
  | bitEnds inPhase _ more =>
    have one : 39 - (b.bitidx + 1) + 1 = 39 - b.bitidx := by have := inv.bitidx_busy busy; omega
    have bits := succ_mul_bitBudget c (39 - (b.bitidx + 1))
    rw [one] at bits
    simp only [inPhase, Params.ticksOf] at room
    simp only [Block.ticksLeft, inPhase]
    omega

/-- Every busy cycle finishes the operation or leaves fewer cycles of it. -/
theorem nextBlock_cyclesLeft_lt (inv : b.Inv c) (sound : c.wf = true) {p : Pins} (rst : p.rst = false)
    (busy : b.phase ≠ .idle) :
    (nextBlock c p b).phase = .idle ∨ (nextBlock c p b).cyclesLeft c < b.cyclesLeft c := by
  have pos := Params.cyclesPerUs_pos sound
  have presc := inv.presc_lt
  obtain ⟨t, ⟨noTick, rfl⟩ | ⟨last, tick⟩, e⟩ := nextBlock_busy c rst busy <;> rw [e]
  · right
    have left : c.cyclesPerUs ≤ b.ticksLeft c * c.cyclesPerUs := Nat.le_mul_of_pos_left _ (inv.ticksLeft_pos busy)
    have counts : (b.presc + 1) % c.cyclesPerUs = b.presc + 1 := Nat.mod_eq_of_lt (by omega)
    show b.ticksLeft c * c.cyclesPerUs - (b.presc + 1) % c.cyclesPerUs < b.ticksLeft c * c.cyclesPerUs - b.presc
    omega
  · refine (tick.ticksLeft_lt (inv.hostFlags _) busy).imp id fun fewer => ?_
    have left : (t.ticksLeft c + 1) * c.cyclesPerUs ≤ b.ticksLeft c * c.cyclesPerUs := Nat.mul_le_mul_right _ fewer
    rw [Nat.succ_mul] at left
    show t.ticksLeft c * c.cyclesPerUs - (b.presc + 1) % c.cyclesPerUs < b.ticksLeft c * c.cyclesPerUs - b.presc
    omega

/-- An acquisition begins with the bound of R128 ahead of it. -/
theorem Block.startAcq_cyclesLeft (c : Params) (init : Bool) (b : Block) :
    (b.startAcq c init).cyclesLeft c = c.bound init * c.cyclesPerUs := by
  cases waits : powersUp c init with
  | true =>
    obtain ⟨rfl, -⟩ : init = true ∧ 0 < c.powerupUs := by simpa [powersUp] using waits
    rw [startAcq_powerup b waits]
    rfl
  | false =>
    have noWait : (if init then c.powerupUs else 0) = 0 := by
      cases init <;> simp_all [powersUp]
    rw [startAcq_start b waits, Params.bound, noWait, Nat.zero_add]
    rfl

end

/-- Only an idle block accepts a command (R74). -/
theorem Block.busy_of_accepts {b : Block} {i : Instr} (accepted : b.accepts i = true) : b.busy = false := by
  cases i <;> simp_all [Block.accepts]

/-- The cycle of an accepted command is `startAcq` (R79). -/
theorem nextBlock_accepted {c : Params} {p : Pins} {b : Block} {init : Bool} (rst : p.rst = false)
    (accepted : b.accepts (decode p.slot) = true) (isInit : init = true ↔ ∃ dc, decode p.slot = .cmdInit dc) :
    nextBlock c p b = (b.startAcq c init).synchronise p.dqI b.sync1 := by
  have hb := Block.busy_of_accepts accepted
  have host : effect c (decode p.slot) b = b.startAcq c init := by
    cases i : decode p.slot with
    | cmdInit dc =>
      rw [isInit.mpr ⟨dc, i⟩, effect, Block.command_idle hb]
    | cmdAcquire dc =>
      have acquire : init = false := by simpa [i] using isInit
      have ready : b.ready = true := by simpa [i, Block.accepts, hb] using accepted
      rw [acquire, effect, Block.command_idle hb, Block.acquire_ready ready]
    | _ => simp [i, Block.accepts] at accepted
  rw [nextBlock, host]
  simp only [rst, sequenced, hb]
  rfl

/-- Settles O56: `nextBlock_cyclesLeft_lt` for a busy cycle, `Block.startAcq_cyclesLeft` for an accepted command. -/
theorem everyBusyCycleShortensTheOperation : Obligations.EveryBusyCycleShortensTheOperation := by
  unfold Obligations.EveryBusyCycleShortensTheOperation
  intro s p rest safe listed rst
  obtain ⟨t, ht, blk, -⟩ := step_listed safe.cfg listed
  refine ⟨t, ht, ?_⟩
  rw [blk]
  refine ⟨nextBlock_cyclesLeft_lt safe.blk safe.cfg rst, fun dc idle init => ?_, fun dc idle ready acquire => ?_⟩
  · have hb : s.blk.busy = false := s.blk.busy_eq_false_iff.mpr idle
    rw [nextBlock_accepted (init := true) rst (by simp [init, Block.accepts, hb]) (by simp [init])]
    exact s.blk.startAcq_cyclesLeft s.cfg true
  · have hb : s.blk.busy = false := s.blk.busy_eq_false_iff.mpr idle
    rw [nextBlock_accepted (init := false) rst (by simp [acquire, Block.accepts, hb, ready]) (by simp [acquire])]
    exact s.blk.startAcq_cyclesLeft s.cfg false

end Sys2Proof.Machine
end

section
/-! PROOFS. The start-signal window (R90), over the cycles of a run without reset: how far a phase has come in cycles
(`Block.elapsed`), what a phase of fixed length and a wait do with it, and where the operation stands in each cycle
after the command's (`StartSignal`). -/

namespace Sys2Proof.Machine

/-! ## The cycles of a phase -/

/-- The cycles that the current phase has run (R29, R36). -/
def Block.elapsed (c : Params) (b : Block) : Nat := b.cnt * c.cyclesPerUs + b.presc

/-- A phase that has one cycle to go of its `k`-th tick period is at its `k`-th tick. -/
theorem Block.tick_of_elapsed {c : Params} {b : Block} {k : Nat} (presc : b.presc < c.cyclesPerUs)
    (elapsed : b.elapsed c + 1 = k * c.cyclesPerUs) : b.presc = c.cyclesPerUs - 1 ∧ b.cnt + 1 = k := by
  unfold Block.elapsed at elapsed
  have below : b.cnt < k := Nat.lt_of_mul_lt_mul_right (a := c.cyclesPerUs) (by omega)
  have period : (b.cnt + 1) * c.cyclesPerUs ≤ k * c.cyclesPerUs := Nat.mul_le_mul_right _ below
  rw [Nat.succ_mul] at period
  refine ⟨by omega, Nat.eq_of_mul_eq_mul_right (Nat.zero_lt_of_lt presc) ?_⟩
  rw [Nat.succ_mul]
  omega

/-- The phase that follows a phase of fixed length (R81, R82). -/
def fixedNext : Phase → Option Phase
  | .powerup => some .start
  | .start => some .waitAckLo
  | _ => none

section
variable {c : Params} {b t : Block}

/-- A tick that stays in the phase has counted. -/
theorem TickDoes.counted_of_stays (h : TickDoes c b t) (busy : b.phase ≠ .idle) (stays : t.phase = b.phase) :
    t = { b with cnt := b.cnt + 1 } := by
  cases h with
  | counted _ => rfl
  | frameEnds _ _ _ _ _ | timesOut _ _ => exact absurd stays.symm busy
  | powerupEnds inPhase _ | startEnds inPhase _ | ackLoSeen inPhase _ | ackHiSeen inPhase _ | dataLoSeen inPhase _
  | bitRises inPhase _ | bitEnds inPhase _ _ => simp [inPhase] at stays

/-- A tick of a phase of fixed length stays in it, or at the last one goes on (R81, R82). -/
theorem TickDoes.fixed_cases {q : Phase} (h : TickDoes c b t) (fixed : fixedNext b.phase = some q) :
    (b.cnt + 1 ≠ c.ticksOf b.phase ∧ t.phase = b.phase) ∨
      (b.cnt + 1 = c.ticksOf b.phase ∧ t.phase = q ∧ t.cnt = 0) := by
  cases h with
  | counted below => exact .inl ⟨below, rfl⟩
  | powerupEnds inPhase last | startEnds inPhase last =>
    rw [inPhase] at fixed ⊢
    cases fixed
    exact .inr ⟨last, rfl, rfl⟩
  | timesOut unseen _ =>
    cases inPhase : b.phase <;> simp [inPhase, awaited, fixedNext] at unseen fixed
  | frameEnds _ _ inPhase _ _ | ackLoSeen inPhase _ | ackHiSeen inPhase _ | dataLoSeen inPhase _
  | bitRises inPhase _ | bitEnds inPhase _ _ => simp [inPhase, fixedNext] at fixed

variable {p : Pins} (inv : b.Inv c) (rst : p.rst = false)
include inv rst

/-- A busy cycle that stays in the phase is one more cycle of it. -/
theorem nextBlock_elapsed (busy : b.phase ≠ .idle) (stays : (nextBlock c p b).phase = b.phase) :
    (nextBlock c p b).elapsed c = b.elapsed c + 1 := by
  have presc := inv.presc_lt
  obtain ⟨t, ⟨noTick, rfl⟩ | ⟨last, tick⟩, e⟩ := nextBlock_busy c rst busy <;> rw [e] at stays ⊢
  · show b.cnt * c.cyclesPerUs + (b.presc + 1) % c.cyclesPerUs = b.cnt * c.cyclesPerUs + b.presc + 1
    rw [Nat.mod_eq_of_lt (by omega), Nat.add_assoc]
  · obtain rfl := tick.counted_of_stays busy stays
    show (b.cnt + 1) * c.cyclesPerUs + (b.presc + 1) % c.cyclesPerUs = b.cnt * c.cyclesPerUs + b.presc + 1
    rw [last, Nat.sub_add_cancel (by omega), Nat.mod_self, Nat.succ_mul]
    omega

/-- A cycle of a phase of fixed length: one more of them, or with the last one the next phase begins (R81, R82). -/
theorem nextBlock_fixed {q : Phase} (fixed : fixedNext b.phase = some q) :
    (b.elapsed c + 1 < c.ticksOf b.phase * c.cyclesPerUs →
      (nextBlock c p b).phase = b.phase ∧ (nextBlock c p b).elapsed c = b.elapsed c + 1) ∧
    (b.elapsed c + 1 = c.ticksOf b.phase * c.cyclesPerUs →
      (nextBlock c p b).phase = q ∧ (nextBlock c p b).elapsed c = 0) := by
  have presc := inv.presc_lt
  have busy : b.phase ≠ .idle := fun idle => by simp [idle, fixedNext] at fixed
  have going : (nextBlock c p b).phase = b.phase → (nextBlock c p b).elapsed c = b.elapsed c + 1 :=
    nextBlock_elapsed inv rst busy
  constructor <;> intro place
  · suffices stays : (nextBlock c p b).phase = b.phase from ⟨stays, going stays⟩
    obtain ⟨t, ⟨-, rfl⟩ | ⟨last, tick⟩, e⟩ := nextBlock_busy c rst busy <;> rw [e]
    · rfl
    · rcases tick.fixed_cases fixed with ⟨-, stays⟩ | ⟨spent, -⟩
      · exact stays
      · have spent : (b.cnt + 1) * c.cyclesPerUs = c.ticksOf b.phase * c.cyclesPerUs := congrArg (· * _) spent
        rw [Nat.succ_mul] at spent
        unfold Block.elapsed at place
        omega
  · obtain ⟨last, spent⟩ := Block.tick_of_elapsed presc place
    obtain ⟨t, ⟨noTick, -⟩ | ⟨-, tick⟩, e⟩ := nextBlock_busy c rst busy
    · exact absurd last noTick
    · rw [e]
      rcases tick.fixed_cases fixed with ⟨more, -⟩ | ⟨-, next, fresh⟩
      · exact absurd spent more
      · refine ⟨next, ?_⟩
        show t.cnt * c.cyclesPerUs + (b.presc + 1) % c.cyclesPerUs = 0
        rw [fresh, last, Nat.sub_add_cancel (by omega), Nat.mod_self, Nat.zero_mul]

end

/-! ## Runs, cycle by cycle -/

/-- `k` cycles lead from `s` to `t`, a state with the same configuration, later inputs, and the invariant. -/
structure Reaches (k : Nat) (s t : State) : Prop where
  run : run k s = .next t
  cfg : t.cfg = s.cfg
  inputs : t.inputs = s.inputs.drop k
  inv : t.blk.Inv s.cfg

theorem State.Safe.reaches {s : State} (safe : s.Safe) (k : Nat) : ∃ t, Reaches k s t := by
  obtain ⟨t, ht, cfg, inputs⟩ := run_total safe.cfg k
  obtain ⟨u, hu, safe'⟩ := safe.after_run k
  obtain rfl : t = u := by rw [ht] at hu; cases hu; rfl
  exact ⟨t, ht, cfg, inputs, cfg ▸ safe'.blk⟩

/-- What is known of the state after `k` cycles holds of the one reached. -/
theorem Reaches.of_run {k : Nat} {s t : State} {Q : Block → Prop} (reach : Reaches k s t)
    (known : ∃ u, Machine.run k s = .next u ∧ Q u.blk) : Q t.blk := by
  obtain ⟨u, hu, holds⟩ := known
  rw [reach.run] at hu
  cases hu
  exact holds

/-- The inputs of the next `m + 1` cycles are without reset: so is the one after `m` of them. -/
theorem State.NoReset.after {s t : State} {m : Nat} (h : s.NoReset (m + 1)) (later : t.inputs = s.inputs.drop m) :
    t.pins.rst = false := by
  obtain ⟨len, rst⟩ := h
  rw [List.drop_eq_getElem_cons len] at later
  rw [State.pins_cons later]
  exact rst _ (List.mem_take_iff_getElem.mpr ⟨m, by omega, rfl⟩)

/-- The last cycle of a run without reset. -/
theorem Reaches.last_cycle {k : Nat} {s u : State} (reach : Reaches (k + 1) s u) (safe : s.Safe)
    (noReset : s.NoReset (k + 1)) :
    ∃ t, Reaches k s t ∧ t.pins.rst = false ∧ u.blk = nextBlock s.cfg t.pins t.blk := by
  obtain ⟨t, before⟩ := safe.reaches k
  have step := reach.run
  rw [run_snoc before.run] at step
  obtain ⟨-, -, blk, -⟩ := step_next step
  exact ⟨t, before, noReset.after before.inputs, by rw [blk, before.cfg]⟩

/-! ## The window -/

@[simp] theorem Block.dqOePin_false (b : Block) : b.dqOePin false = b.dqOe := by simp [dqOePin]

/-- Where the operation stands `e` cycles after its first one, up to the release of the line, with the power-up wait of
`P` ticks (R81, R82, R90). -/
inductive StartSignal (c : Params) (P e : Nat) (b : Block) : Prop
  | powerup (inPhase : b.phase = .powerup) (delay : P = c.powerupUs) (elapsed : b.elapsed c = e)
      (before : e < P * c.cyclesPerUs)
  | start (inPhase : b.phase = .start) (elapsed : P * c.cyclesPerUs + b.elapsed c = e)
      (before : e < (P + c.startLowUs) * c.cyclesPerUs)
  | released (inPhase : b.phase = .waitAckLo) (elapsed : b.elapsed c = 0)
      (place : e = (P + c.startLowUs) * c.cyclesPerUs)

section
variable {c : Params} {P e : Nat} {b : Block} {p : Pins}

/-- START has at least one cycle. -/
theorem start_has_cycles (sound : c.wf = true) (P : Nat) :
    P * c.cyclesPerUs < (P + c.startLowUs) * c.cyclesPerUs :=
  Nat.mul_lt_mul_of_pos_right (Nat.lt_add_of_pos_right (c.wf_iff.mp sound).2.1) (Params.cyclesPerUs_pos sound)

/-- It begins with the cycle after an accepted command's (R79). -/
theorem StartSignal.begins {init : Bool} (sound : c.wf = true) (rst : p.rst = false)
    (accepted : b.accepts (decode p.slot) = true) (isInit : init = true ↔ ∃ dc, decode p.slot = .cmdInit dc)
    (delay : P = if init then c.powerupUs else 0) : StartSignal c P 0 (nextBlock c p b) := by
  have fresh : ((b.startAcq c init).synchronise p.dqI b.sync1).elapsed c = 0 := by simp [Block.elapsed]
  rw [nextBlock_accepted rst accepted isInit]
  cases waits : powersUp c init with
  | true =>
    obtain ⟨rfl, wait⟩ : init = true ∧ 0 < c.powerupUs := by simpa [powersUp] using waits
    refine .powerup (by simp [waits]) delay fresh ?_
    rw [delay]
    exact Nat.mul_pos wait (Params.cyclesPerUs_pos sound)
  | false =>
    obtain rfl : P = 0 := by cases init <;> simp_all [powersUp]
    exact .start (by simp [waits]) (by rw [fresh, Nat.zero_mul]) (Nat.zero_lt_of_lt (start_has_cycles sound 0))

/-- Each cycle takes it one place on. -/
theorem StartSignal.next (h : StartSignal c P e b) (inv : b.Inv c) (sound : c.wf = true) (rst : p.rst = false)
    (before : e < (P + c.startLowUs) * c.cyclesPerUs) : StartSignal c P (e + 1) (nextBlock c p b) := by
  cases h with
  | powerup inPhase delay elapsed inPowerup =>
    obtain ⟨stays, ends⟩ := nextBlock_fixed (q := .start) inv rst (by rw [inPhase]; rfl)
    rw [inPhase, Params.ticksOf, ← delay, elapsed] at stays ends
    rcases Nat.lt_or_eq_of_le (show e + 1 ≤ _ from inPowerup) with more | last
    · obtain ⟨phase, counted⟩ := stays more
      exact .powerup phase delay counted more
    · obtain ⟨phase, fresh⟩ := ends last
      exact .start phase (by rw [fresh, Nat.add_zero, last]) (by rw [last]; exact start_has_cycles sound P)
  | start inPhase elapsed _ =>
    obtain ⟨stays, ends⟩ := nextBlock_fixed (q := .waitAckLo) inv rst (by rw [inPhase]; rfl)
    rw [inPhase, Params.ticksOf] at stays ends
    have total : (P + c.startLowUs) * c.cyclesPerUs = _ := Nat.add_mul ..
    rcases Nat.lt_or_eq_of_le (show e + 1 ≤ _ from before) with more | last
    · obtain ⟨phase, counted⟩ := stays (by omega)
      exact .start phase (by omega) more
    · obtain ⟨phase, fresh⟩ := ends (by omega)
      exact .released phase fresh last
  | released _ _ place => exact absurd place before.ne

/-- The line is driven in the START part of it. -/
theorem StartSignal.dqOe_eq (h : StartSignal c P e b) (inv : b.Inv c) :
    b.dqOe = decide (P * c.cyclesPerUs ≤ e ∧ e < (P + c.startLowUs) * c.cyclesPerUs) := by
  rw [Bool.eq_iff_iff, inv.dqOe_start, decide_eq_true_iff]
  cases h with
  | powerup inPhase _ _ before => simp [inPhase, before]
  | start inPhase elapsed before => simp only [inPhase, before, true_iff, and_true]; omega
  | released inPhase _ place => simp [inPhase, place]

/-- At its end the line has been released and WAIT_ACK_LO has begun. -/
theorem StartSignal.released_at_end (sound : c.wf = true)
    (h : StartSignal c P ((P + c.startLowUs) * c.cyclesPerUs) b) : b.phase = .waitAckLo ∧ b.elapsed c = 0 := by
  cases h with
  | powerup _ _ _ before => exact absurd (start_has_cycles sound P) before.not_gt
  | start _ _ before => exact absurd before (lt_irrefl _)
  | released inPhase fresh _ => exact ⟨inPhase, fresh⟩

/-- The phases after START, while the operation lasts, are waits (R17). -/
theorem waits_of_successor {q q' : Phase} (waits : (awaited q).isSome = true) (path : q' ∈ successors q)
    (busy : q' ≠ .idle) : (awaited q').isSome = true := by
  cases q with
  | idle | powerup | start => simp [awaited] at waits
  | waitAckLo | waitAckHi | waitDataLo | waitBitHi | waitBitLo =>
    simp only [successors, List.mem_cons, List.not_mem_nil, busy, or_false] at path
    rcases path with rfl | rfl <;> rfl

end

section
variable {s : State} {init : Bool} {P : Nat} (safe : s.Safe) (accepted : s.blk.accepts (decode s.pins.slot) = true)
  (isInit : init = true ↔ ∃ dc, decode s.pins.slot = .cmdInit dc)
  (delay : P = if init then s.cfg.powerupUs else 0)
include safe accepted isInit delay

/-- Cycle by cycle from the command's to the release. -/
theorem Reaches.startSignal {e : Nat} {t : State} (reach : Reaches (e + 1) s t) (noReset : s.NoReset (e + 1))
    (within : e ≤ (P + s.cfg.startLowUs) * s.cfg.cyclesPerUs) : StartSignal s.cfg P e t.blk := by
  induction e generalizing t with
  | zero =>
    obtain ⟨_, ⟨⟨⟩, -⟩, rst, blk⟩ := reach.last_cycle safe noReset
    rw [blk]
    exact .begins safe.cfg rst accepted isInit delay
  | succ e ih =>
    obtain ⟨u, before, rst, blk⟩ := reach.last_cycle safe noReset
    rw [blk]
    exact (ih before (noReset.mono (Nat.le_succ _)) (Nat.le_of_lt within)).next before.inv safe.cfg rst within

/-- After the release the operation only waits, as long as it lasts. -/
theorem Reaches.waits_after_release {k : Nat} {t : State} (reach : Reaches k s t) (noReset : s.NoReset k)
    (released : (P + s.cfg.startLowUs) * s.cfg.cyclesPerUs < k)
    (lasts : ∀ m, (P + s.cfg.startLowUs) * s.cfg.cyclesPerUs < m → m ≤ k →
      ∃ u, Machine.run m s = .next u ∧ u.blk.phase ≠ .idle) : (awaited t.blk.phase).isSome = true := by
  induction k, Nat.succ_le_of_lt released using Nat.le_induction generalizing t with
  | base =>
    obtain ⟨inPhase, -⟩ := (reach.startSignal safe accepted isInit delay noReset le_rfl).released_at_end safe.cfg
    rw [inPhase]
    rfl
  | succ k later ih =>
    obtain ⟨u, before, rst, blk⟩ := reach.last_cycle safe noReset
    have waits := ih before (noReset.mono (Nat.le_succ _)) later fun m hm le => lasts m hm (Nat.le_succ_of_le le)
    have busy : u.blk.phase ≠ .idle := before.of_run (Q := fun b => b.phase ≠ .idle) (lasts k later (Nat.le_succ _))
    have busy' : t.blk.phase ≠ .idle := reach.of_run (Q := fun b => b.phase ≠ .idle) (lasts (k + 1) released le_rfl)
    rw [blk] at busy' ⊢
    exact waits_of_successor waits (StillRunning.of_busy rst busy busy').path busy'

/-- While WAIT_ACK_LO lasts, its cycles are counted from the release. -/
theorem Reaches.elapsed_after_release {e : Nat} {t : State}
    (reach : Reaches ((P + s.cfg.startLowUs) * s.cfg.cyclesPerUs + (e + 1)) s t)
    (noReset : s.NoReset ((P + s.cfg.startLowUs) * s.cfg.cyclesPerUs + (e + 1)))
    (lasts : ∀ m, (P + s.cfg.startLowUs) * s.cfg.cyclesPerUs < m →
      m ≤ (P + s.cfg.startLowUs) * s.cfg.cyclesPerUs + (e + 1) →
      ∃ u, Machine.run m s = .next u ∧ u.blk.phase = .waitAckLo) : t.blk.elapsed s.cfg = e := by
  induction e generalizing t with
  | zero =>
    exact ((reach.startSignal safe accepted isInit delay noReset le_rfl).released_at_end safe.cfg).2
  | succ e ih =>
    obtain ⟨u, before, rst, blk⟩ := reach.last_cycle safe noReset
    have elapsed := ih before (noReset.mono (by omega)) fun m hm le => lasts m hm (by omega)
    have inPhase : u.blk.phase = .waitAckLo :=
      before.of_run (Q := fun b => b.phase = .waitAckLo) (lasts _ (Nat.lt_add_of_pos_right e.succ_pos) (Nat.le_succ _))
    have inPhase' : t.blk.phase = .waitAckLo :=
      reach.of_run (Q := fun b => b.phase = .waitAckLo) (lasts _ (by omega) le_rfl)
    rw [blk] at inPhase' ⊢
    rw [nextBlock_elapsed before.inv rst (by rw [inPhase]; decide) (inPhase'.trans inPhase.symm), elapsed]

end

/-- Settles O55: in each cycle of the window the operation stands where `StartSignal` says; after it the operation only
waits (`Reaches.waits_after_release`), and WAIT_ACK_LO's cycles are counted from the release
(`Reaches.elapsed_after_release`). -/
theorem startSignalLastsItsWindow : Obligations.StartSignalLastsItsWindow := by
  unfold Obligations.StartSignalLastsItsWindow
  intro s p rest init P n safe listed accepted isInit delay length
  obtain rfl := State.pins_cons listed
  subst length
  refine ⟨fun noReset k within => ?_, fun k released noReset lasts => ?_, fun k first noReset lasts => ?_⟩
  · obtain ⟨t, reach⟩ := safe.reaches k
    refine ⟨t, reach.run, ?_⟩
    rw [Block.dqOePin_false]
    cases k with
    | zero =>
      obtain ⟨⟨⟩, -⟩ := reach
      have idle : s.blk.phase = .idle := s.blk.busy_eq_false_iff.mp (Block.busy_of_accepts accepted)
      have undriven : s.blk.dqOe = false := by simpa [idle] using safe.blk.dqOe_start
      exact ⟨by simp [undriven], nofun⟩
    | succ e =>
      have within : e ≤ (P + s.cfg.startLowUs) * s.cfg.cyclesPerUs := Nat.le_of_succ_le_succ within
      have window := reach.startSignal safe accepted isInit delay (noReset.mono (Nat.succ_le_succ within)) within
      refine ⟨?_, fun last => ?_⟩
      · rw [window.dqOe_eq reach.inv]
        simp only [Nat.succ_le_iff, Nat.lt_succ_iff]
      · obtain rfl := Nat.succ.inj last
        exact (window.released_at_end safe.cfg).1
  · obtain ⟨t, reach⟩ := safe.reaches k
    have waits := reach.waits_after_release safe accepted isInit delay noReset released lasts
    have noStart : t.blk.phase ≠ .start := fun start => by simp [start, awaited] at waits
    refine ⟨t, reach.run, ?_⟩
    rw [Block.dqOePin_false]
    simpa [noStart] using reach.inv.dqOe_start
  · have cycles : 1 ≤ k * s.cfg.cyclesPerUs := Nat.mul_pos first (Params.cyclesPerUs_pos safe.cfg)
    obtain ⟨e, he⟩ := Nat.exists_eq_add_of_le' cycles
    rw [he] at noReset lasts ⊢
    obtain ⟨t, reach⟩ := safe.reaches ((P + s.cfg.startLowUs) * s.cfg.cyclesPerUs + (e + 1))
    have elapsed := reach.elapsed_after_release safe accepted isInit delay noReset lasts
    have inPhase : t.blk.phase = .waitAckLo :=
      reach.of_run (Q := fun b => b.phase = .waitAckLo) (lasts _ (by omega) le_rfl)
    obtain ⟨last, count⟩ := Block.tick_of_elapsed reach.inv.presc_lt (by rw [elapsed, he])
    exact ⟨t, reach.run, (t.blk.tick_iff s.cfg).mpr ⟨by rw [inPhase]; decide, last⟩, count⟩

end Sys2Proof.Machine
end

section
/-! PROOFS. The data bits (42_bit_reception.md): the two waits of a bit, one tick each; the comparator (R95); where the
bits shifted in end up (R96, R98); and the data phase on its own. -/

namespace Sys2Proof.Machine

/-! ## The waits of a bit, one tick each -/

/-- Settles O23: WAIT_BIT_HI sees the line high, times out, or counts. -/
theorem bitHighWaitMeasuresTheLow : Obligations.BitHighWaitMeasuresTheLow := by
  unfold Obligations.BitHighWaitMeasuresTheLow
  intro s
  refine ⟨fun seen => ?_, fun unseen spent => ?_, fun unseen below => ?_⟩
  · exact exec_op_of_effect (q := .waitBitHi) (effect_wait_seen rfl seen)
  · exact exec_op_of_effect (q := .waitBitHi) (effect_wait_timesOut rfl unseen spent)
  · exact exec_op_of_effect (q := .waitBitHi) (effect_wait_counts rfl unseen below)

section
variable {c : Params} {b : Block} {f : Frame}

/-- The bit that ends now, before the 40th: the next one's WAIT_BIT_HI begins (R94, R96). -/
theorem effect_waitBitLo_more (bit : f = shiftIn b.sr (bitval (b.cnt + 1) b.lowDur)) (seen : b.sync2 = false)
    (more : b.bitidx + 1 ≠ 40) :
    effect c Phase.waitBitLo.op b = { b with sr := f, bitidx := b.bitidx + 1, phase := .waitBitHi, cnt := 0 } := by
  rw [effect_wait_seen rfl seen, Block.afterWait, Block.bitDone_more ?count, bit]
  case count => exact more

/-- The 40th bit ends the frame, whatever the tick counter holds (R94, R102). -/
theorem effect_waitBitLo_last (bit : f = shiftIn b.sr (bitval (b.cnt + 1) b.lowDur)) (seen : b.sync2 = false)
    (last : b.bitidx + 1 = 40) : effect c Phase.waitBitLo.op b = b.received f := by
  rw [effect_wait_seen rfl seen, Block.afterWait, Block.bitDone_last ?count, bit, Block.received_eq, Block.received_eq]
  case count => exact last

end

/-- Settles O24: `effect_waitBitLo_more` and `effect_waitBitLo_last` when the line is low, whose frame is `shiftIn` of
the bit written out; else the wait times out or counts. -/
theorem bitLowWaitDecidesTheBit : Obligations.BitLowWaitDecidesTheBit := by
  unfold Obligations.BitLowWaitDecidesTheBit
  intro s f bit
  refine ⟨fun seen more => ?_, fun seen last => ?_, fun unseen spent => ?_, fun unseen below => ?_⟩
  · exact exec_op_of_effect (q := .waitBitLo) (effect_waitBitLo_more bit seen more)
  · exact exec_op_of_effect (q := .waitBitLo) (effect_waitBitLo_last bit seen last)
  · exact exec_op_of_effect (q := .waitBitLo) (effect_wait_timesOut rfl unseen spent)
  · exact exec_op_of_effect (q := .waitBitLo) (effect_wait_counts rfl unseen below)

/-! ## The comparator -/

/-- A strictly increasing function keeps the order of the durations, and the comparator sees nothing else of them. -/
theorem bitval_strictMono {f : Nat → Nat} (mono : StrictMono f) (h l : Nat) : bitval (f h) (f l) = bitval h l := by
  rw [Bool.eq_iff_iff, bitval_eq_true, bitval_eq_true, mono.lt_iff_lt]

/-- Settles O26: `bitval_eq_true` and `bitval_strictMono`. -/
theorem comparatorDependsOnOrderOnly : Obligations.ComparatorDependsOnOrderOnly := by
  unfold Obligations.ComparatorDependsOnOrderOnly
  refine ⟨bitval_eq_true, fun f mono => bitval_strictMono fun _ _ => mono _ _, ?_, ?_⟩
  · exact (bitval_eq_true 2 1).mpr (by decide)
  · exact (bitval_eq_false 63 64).mpr (by decide)

/-! ## The frame of the bits -/

/-- Of up to 40 bits shifted in, the `i`-th is as far above bit 0 as there are bits after it: the last one is at bit 0,
and it has moved every earlier one up (R96). -/
theorem foldl_shiftIn_getLsbD (f : Frame) {bits : List Bool} (room : bits.length ≤ 40) {i : Nat}
    (inRange : i < bits.length) : (bits.foldl shiftIn f).getLsbD (bits.length - 1 - i) = bits[i] := by
  induction bits using List.reverseRecOn with
  | nil => exact absurd inRange (Nat.not_lt_zero i)
  | append_singleton bits v ih =>
    have len : (bits ++ [v]).length = bits.length + 1 := List.length_append
    rw [len] at room inRange
    rw [List.foldl_append, List.foldl_cons, List.foldl_nil, shiftIn_getLsbD]
    rcases Nat.lt_succ_iff_lt_or_eq.mp inRange with earlier | rfl
    · have above : (bits ++ [v]).length - 1 - i = bits.length - 1 - i + 1 := by omega
      have within : bits.length - 1 - i + 1 < 40 := by omega
      rw [above, if_neg (Nat.succ_ne_zero _), decide_eq_true within, Bool.true_and, Nat.add_sub_cancel,
        ih (by omega) earlier, List.getElem_append_left earlier]
    · simp

/-- The bits of byte `k` of a frame (R13). -/
theorem frameByte_getLsbD (f : Frame) (k : Nat) {n : Nat} (inByte : n < 8) :
    (frameByte f k).getLsbD n = f.getLsbD (32 - 8 * k + n) := by
  simp [frameByte, inByte]

/-- Bit `i` of a frame in the order of reception, within its byte (R98). -/
theorem frameByte_getLsbD_received (f : Frame) {i : Nat} (inFrame : i < 40) :
    (frameByte f (i / 8)).getLsbD (7 - i % 8) = f.getLsbD (39 - i) := by
  have place : 32 - 8 * (i / 8) + (7 - i % 8) = 39 - i := by omega
  rw [frameByte_getLsbD f (i / 8) (by omega), place]

/-- Byte `k` below the `n` bits above it: the slice that ends with the byte (R13). -/
theorem append_frameByte (f : Frame) (k n : Nat) :
    f.extractLsb' (32 - 8 * k + 8) n ++ frameByte f k = f.extractLsb' (32 - 8 * k) (n + 8) :=
  BitVec.extractLsb'_append_extractLsb'_eq_extractLsb' rfl

theorem frameHum_eq_bytes (f : Frame) : frameHum f = frameByte f 0 ++ frameByte f 1 :=
  (append_frameByte f 1 8).symm

theorem frameTemp_eq_bytes (f : Frame) : frameTemp f = frameByte f 2 ++ frameByte f 3 :=
  (append_frameByte f 3 8).symm

/-- A frame is its five bytes, the first received on top (R13). -/
theorem frame_eq_bytes (f : Frame) :
    f = frameByte f 0 ++ frameByte f 1 ++ frameByte f 2 ++ frameByte f 3 ++ frameByte f 4 :=
  calc f
    _ = f.extractLsb' 0 40 := BitVec.extractLsb'_eq_self.symm
    _ = f.extractLsb' 8 32 ++ frameByte f 4 := (append_frameByte f 4 32).symm
    _ = f.extractLsb' 16 24 ++ frameByte f 3 ++ frameByte f 4 :=
      congrArg (· ++ frameByte f 4) (append_frameByte f 3 24).symm
    _ = frameHum f ++ frameByte f 2 ++ frameByte f 3 ++ frameByte f 4 :=
      congrArg (· ++ frameByte f 3 ++ frameByte f 4) (append_frameByte f 2 16).symm
    _ = frameByte f 0 ++ frameByte f 1 ++ frameByte f 2 ++ frameByte f 3 ++ frameByte f 4 :=
      congrArg (· ++ frameByte f 2 ++ frameByte f 3 ++ frameByte f 4) (frameHum_eq_bytes f)

/-- Settles O27: `foldl_shiftIn_getLsbD` at 40 bits, `frameByte_getLsbD_received`, and the words by their bytes. -/
theorem receivedBitsFillTheBytesInOrder : Obligations.ReceivedBitsFillTheBytesInOrder := by
  unfold Obligations.ReceivedBitsFillTheBytesInOrder
  intro f0 bits len
  refine ⟨fun i hi => ?_, fun f => ⟨frameHum_eq_bytes f, frameTemp_eq_bytes f, frame_eq_bytes f⟩⟩
  have bit : (bits.foldl shiftIn f0).getLsbD (39 - i) = bits[i] := by
    have h := foldl_shiftIn_getLsbD f0 len.le hi
    rwa [len] at h
  exact ⟨bit, (frameByte_getLsbD_received _ (len ▸ hi)).trans bit⟩

/-! ## The data phase -/

/-- Settles O31: `Block.ticked_frameSamples` from the first bit, with nothing shifted in yet. -/
theorem dataPhaseDecodesTheFrameOfItsDurations : Obligations.DataPhaseDecodesTheFrameOfItsDurations := by
  unfold Obligations.DataPhaseDecodesTheFrameOfItsDurations
  intro s ds inPhase fresh first cleared ⟨bits, fit⟩
  obtain ⟨l, frame⟩ := Block.ticked_frameSamples inPhase fresh (show s.blk.bitidx + ds.length = 40 by omega)
    (List.length_pos_iff.mp (by omega)) fit
  refine ⟨l, ?_⟩
  rw [sampleTicks_eq, frame, cleared, bitsShiftedInto_zero]
  rfl

end Sys2Proof.Machine
end

section
/-! PROOFS. The checksum and the commit of the result (43_checksum_commit.md): the arithmetic of the checksum (R103),
what it detects (R113), what `finish` writes (R105 to R108), the end of a frame at its 40th bit (R102), and the host's
reading of DATA (R109, R110). -/

namespace Sys2Proof.Machine

/-! ## The checksum test -/

/-- The test is the 8-bit equality of R102. -/
theorem frameValid_iff (f : Frame) : frameValid f = true ↔ sum8 f = frameByte f 4 := decide_eq_true_iff

/-- The sum of the bytes as numbers, its carries out of bit 7 discarded (R103). -/
theorem sum8_toNat (f : Frame) :
    (sum8 f).toNat = ((frameByte f 0).toNat + (frameByte f 1).toNat + (frameByte f 2).toNat +
      (frameByte f 3).toNat) % 256 := by
  simp only [sum8, BitVec.toNat_add, Nat.mod_add_mod]

/-- Four bytes add up to at most `4 * 255`. -/
theorem byteSum_le (b0 b1 b2 b3 : Byte) : b0.toNat + b1.toNat + b2.toNat + b3.toNat ≤ 1020 := by
  have := b0.isLt
  have := b1.isLt
  have := b2.isLt
  have := b3.isLt
  omega

/-- Settles O28: the four bytes are those of `sum8`, and `FF FF FF FF` is evaluated. -/
theorem checksumIsTheByteSumModTwoToTheEight : Obligations.ChecksumIsTheByteSumModTwoToTheEight := by
  unfold Obligations.ChecksumIsTheByteSumModTwoToTheEight
  exact ⟨fun f => ⟨sum8_toNat f, byteSum_le _ _ _ _, frameValid_iff f⟩, by decide⟩

/-! ## The checksum of five given bytes -/

section
variable (b0 b1 b2 b3 c : Byte)

/-- A byte above the last one is a byte of what stands before the last one. -/
theorem extractLsb'_append_byte {n : Nat} (x : BitVec n) (start : Nat) :
    (x ++ c).extractLsb' (start + 8) 8 = x.extractLsb' start 8 :=
  BitVec.extractLsb'_append_eq_of_le (Nat.le_add_left 8 start)

theorem frameByte_append_three : frameByte (b0 ++ b1 ++ b2 ++ b3 ++ c) 3 = b3 :=
  (extractLsb'_append_byte c _ 0).trans BitVec.extractLsb'_append_eq_right

theorem frameByte_append_two : frameByte (b0 ++ b1 ++ b2 ++ b3 ++ c) 2 = b2 :=
  (extractLsb'_append_byte c _ 8).trans <| (extractLsb'_append_byte b3 _ 0).trans BitVec.extractLsb'_append_eq_right

theorem frameByte_append_one : frameByte (b0 ++ b1 ++ b2 ++ b3 ++ c) 1 = b1 :=
  (extractLsb'_append_byte c _ 16).trans <| (extractLsb'_append_byte b3 _ 8).trans <|
    (extractLsb'_append_byte b2 _ 0).trans BitVec.extractLsb'_append_eq_right

theorem frameByte_append_zero : frameByte (b0 ++ b1 ++ b2 ++ b3 ++ c) 0 = b0 :=
  (extractLsb'_append_byte c _ 24).trans <| (extractLsb'_append_byte b3 _ 16).trans <|
    (extractLsb'_append_byte b2 _ 8).trans BitVec.extractLsb'_append_eq_left

theorem sum8_append : sum8 (b0 ++ b1 ++ b2 ++ b3 ++ c) = b0 + b1 + b2 + b3 := by
  rw [sum8, frameByte_append_zero, frameByte_append_one, frameByte_append_two, frameByte_append_three]

theorem frameByte_append_last : frameByte (b0 ++ b1 ++ b2 ++ b3 ++ c) 4 = c := BitVec.extractLsb'_append_eq_right

theorem frameValid_append : frameValid (b0 ++ b1 ++ b2 ++ b3 ++ c) = decide (b0 + b1 + b2 + b3 = c) := by
  rw [frameValid, sum8_append, frameByte_append_last]

/-- The two words of DATA together are the four data bytes, in the order of reception (R98, R105). -/
theorem frameHum_append_frameTemp :
    frameHum (b0 ++ b1 ++ b2 ++ b3 ++ c) ++ frameTemp (b0 ++ b1 ++ b2 ++ b3 ++ c) = b0 ++ b1 ++ b2 ++ b3 :=
  (BitVec.extractLsb'_append_extractLsb'_eq_extractLsb' rfl).trans BitVec.extractLsb'_append_eq_left

variable {b0 b1 b2 b3}

/-- The test sees the data bytes through their sum only. -/
theorem frameValid_congr_sum {a0 a1 a2 a3 : Byte} (sums : a0 + a1 + a2 + a3 = b0 + b1 + b2 + b3) :
    frameValid (a0 ++ a1 ++ a2 ++ a3 ++ c) = frameValid (b0 ++ b1 ++ b2 ++ b3 ++ c) := by
  rw [frameValid_append, frameValid_append, sums]

end

/-! ## Single flipped bits -/

/-- A frame is determined by its bytes. -/
theorem eq_of_frameByte_eq {f g : Frame} (bytes : ∀ j ≤ 4, frameByte g j = frameByte f j) : g = f := by
  rw [frame_eq_bytes g, frame_eq_bytes f, bytes 0 (by decide), bytes 1 (by decide), bytes 2 (by decide),
    bytes 3 (by decide), bytes 4 (by decide)]

/-- Four of the five bytes of a valid frame determine the fifth: R103's equation is solved for it, whichever it is. -/
theorem eq_of_frameValid {f g : Frame} (hf : frameValid f = true) (hg : frameValid g = true) {k : Nat}
    (agree : ∀ j ≤ 4, j ≠ k → frameByte g j = frameByte f j) : g = f := by
  rw [frameValid_iff, sum8] at hf hg
  refine eq_of_frameByte_eq fun j inFrame => ?_
  by_cases lost : j = k
  · subst lost
    interval_cases j <;> grind
  · exact agree j inFrame lost

/-- The bits of a frame with bit `i` flipped. -/
theorem getLsbD_flip (f : Frame) (i : Nat) {n : Nat} (inFrame : n < 40) :
    (f ^^^ (1#40 <<< i)).getLsbD n = (f.getLsbD n ^^ decide (i = n)) := by
  have flipped : (1#40 <<< i).getLsbD n = decide (i = n) := by
    rw [← BitVec.twoPow_eq, BitVec.getLsbD_twoPow]
    by_cases h : i = n <;> simp [h, inFrame]
  rw [BitVec.getLsbD_xor, flipped]

/-- A flipped bit `i` is in byte `4 - i / 8`; the other bytes stay. -/
theorem frameByte_flip (f : Frame) {i j : Nat} (inFrame : j ≤ 4) (other : j ≠ 4 - i / 8) :
    frameByte (f ^^^ (1#40 <<< i)) j = frameByte f j := by
  apply BitVec.eq_of_getLsbD_eq
  intro n hn
  have elsewhere : i ≠ 32 - 8 * j + n := by omega
  rw [frameByte_getLsbD _ j hn, frameByte_getLsbD f j hn, getLsbD_flip f i (by omega), decide_eq_false elsewhere,
    Bool.xor_false]

/-- A flipped bit changes the frame, and only one byte of it, so at most one of the two frames is valid (R113 (b)). -/
theorem frameValid_flip {f : Frame} {i : Nat} (inFrame : i < 40) (valid : frameValid f = true) :
    frameValid (f ^^^ (1#40 <<< i)) = false := by
  rw [Bool.eq_false_iff]
  intro flippedValid
  have same : f ^^^ (1#40 <<< i) = f := eq_of_frameValid valid flippedValid fun j => frameByte_flip f
  have bit := getLsbD_flip f i inFrame
  rw [same] at bit
  simp at bit

/-! ## The verdict and the commit -/

theorem Block.validate_valid {f : Frame} (b : Block) (valid : frameValid f = true) :
    b.validate f = b.finish .ok f := if_pos valid

theorem Block.validate_invalid {f : Frame} (b : Block) (invalid : frameValid f = false) :
    b.validate f = b.finish .checksum f := by simp [validate, invalid]

/-- Settles O29: the five cases of R113. A sum does not depend on the order of its terms, and two of them can make up
for one another; a single flip is `frameValid_flip`. -/
theorem checksumDetectsEverySingleBitFlip : Obligations.ChecksumDetectsEverySingleBitFlip := by
  unfold Obligations.ChecksumDetectsEverySingleBitFlip
  refine ⟨fun b => ?allZero, fun f i => frameValid_flip, fun b2 b3 c => ⟨?twoFlips, ?otherData⟩,
    fun b0 b1 b2 b3 c => ?swaps, ?wraps⟩
  case allZero =>
    rw [b.validate_valid (by decide)]
    exact ⟨rfl, rfl, rfl⟩
  case twoFlips => exact frameValid_congr_sum c (by ac_rfl)
  case otherData =>
    rw [frameHum_eq_bytes, frameHum_eq_bytes, frameByte_append_zero, frameByte_append_one, frameByte_append_zero,
      frameByte_append_one]
    decide
  case swaps =>
    refine ⟨?_, ?_, ?_, ?_, ?_, ?_⟩ <;> exact frameValid_congr_sum c (by ac_rfl)
  case wraps => decide

/-- Settles O30: the 40th bit ends in `Block.received` of the frame (`effect_waitBitLo_last`); its verdict is the
8-bit equality of the byte sum, written in numbers. -/
theorem checksumRoundTripThroughTheFortiethBit : Obligations.ChecksumRoundTripThroughTheFortiethBit := by
  unfold Obligations.ChecksumRoundTripThroughTheFortiethBit
  intro s b0 b1 b2 b3 c last seen bit
  have verdict : sum8 (b0 ++ b1 ++ b2 ++ b3 ++ c) = frameByte (b0 ++ b1 ++ b2 ++ b3 ++ c) 4 ↔
      c.toNat = (b0.toNat + b1.toNat + b2.toNat + b3.toNat) % 256 := by
    rw [← BitVec.toNat_inj, sum8_toNat, frameByte_append_zero, frameByte_append_one, frameByte_append_two,
      frameByte_append_three, frameByte_append_last, eq_comm]
  refine ⟨_, exec_op_of_effect (q := .waitBitLo) (effect_waitBitLo_last bit.symm seen (by rw [last])), ?_⟩
  rw [Block.received_eq]
  refine ⟨rfl, rfl, fun right => ?_, fun wrong => ?_⟩
  · simp only [if_pos (verdict.mpr right), true_and]
    exact frameHum_append_frameTemp b0 b1 b2 b3 c
  · simp only [if_neg (mt verdict.mp wrong), true_and]
    rfl

/-- Settles O19: the fields of `finish`, of which DATA follows the result (R105, R107) and READY the result and
`is_init` (R108). -/
theorem finishCommitsTheResult : Obligations.FinishCommitsTheResult := by
  unfold Obligations.FinishCommitsTheResult
  intro res f b
  refine ⟨⟨rfl, rfl, rfl, rfl⟩, ?ok, ?failed, ?invalidArg, ?readySet, ?readyCleared, ?readyKept,
    ⟨rfl, rfl, rfl, rfl, rfl, rfl, rfl⟩⟩
  case ok => rintro rfl; exact ⟨rfl, rfl, rfl⟩
  case failed => rintro (rfl | rfl | rfl) <;> exact ⟨rfl, rfl⟩
  case invalidArg => rintro rfl; exact ⟨rfl, rfl⟩
  case readySet => rintro init rfl; exact b.readyAfter_init .ok rfl init
  case readyCleared =>
    rintro init (rfl | rfl)
    · exact b.readyAfter_init .timeout rfl init
    · exact b.readyAfter_init .checksum rfl init
  case readyKept =>
    rintro (acquire | rfl | rfl)
    · exact b.readyAfter_acquire res acquire
    · exact b.readyAfter_immediate (res := .notReady) rfl
    · exact b.readyAfter_immediate (res := .invalidArg) rfl

/-! ## The host's reading of DATA -/

/-- Settles O59: RD_DATA returns the two words side by side; a valid frame leaves its own (`validate_valid`), any other
zeros (`validate_invalid`). -/
theorem hostReadsTheRawWordUnderItsConvention : Obligations.HostReadsTheRawWordUnderItsConvention := by
  unfold Obligations.HostReadsTheRawWordUnderItsConvention
  intro conv s
  refine ⟨fun dc => ⟨_, exec_eq (.rdData dc) s, rfl, ?readTemp, ?readHum⟩, fun f valid => ?_, fun f invalid => ?_,
    hostTemperature_unsigned s⟩
  case readTemp =>
    have word : (s.blk.hum ++ s.blk.temp).extractLsb' 0 16 = s.blk.temp := BitVec.extractLsb'_append_eq_right
    exact congrArg (conv · / 10) word.symm
  case readHum =>
    have word : (s.blk.hum ++ s.blk.temp).extractLsb' 16 16 = s.blk.hum := BitVec.extractLsb'_append_eq_left
    exact congrArg (fun w : BitVec 16 => (w.toNat : Rat) / 10) word.symm
  · rw [s.blk.validate_valid valid, ← frameTemp_eq_bytes, ← frameHum_eq_bytes]
    exact ⟨rfl, rfl⟩
  · rw [s.blk.validate_invalid invalid, hostTemperature_setBlk, hostHumidity_setBlk]
    exact ⟨rfl, by simp [Block.humAfter]⟩

end Sys2Proof.Machine
end

section
/-! PROOFS. The bound on an accepted command (R128): where an operation stands in each of its cycles (`UnderWay`), and
how it ends at a tick, before the bound is used up. -/

namespace Sys2Proof.Machine

/-- An operation `e` cycles after its first one: the prescaler has counted them (R33), and of the `B` ticks allowed at
least these cycles are used up. -/
structure UnderWay (c : Params) (B e : Nat) (b : Block) : Prop where
  busy : b.phase ≠ .idle
  presc : b.presc = e % c.cyclesPerUs
  left : b.cyclesLeft c + e ≤ B * c.cyclesPerUs

section
variable {c : Params} {B e : Nat} {b : Block} {p : Pins}

/-- A busy operation has at least the running cycle left. -/
theorem Block.Inv.cyclesLeft_pos (inv : b.Inv c) (busy : b.phase ≠ .idle) : 0 < b.cyclesLeft c :=
  Nat.sub_pos_of_lt (inv.presc_lt.trans_le (Nat.le_mul_of_pos_left _ (inv.ticksLeft_pos busy)))

theorem UnderWay.within (h : UnderWay c B e b) (inv : b.Inv c) : e < B * c.cyclesPerUs := by
  have running := inv.cyclesLeft_pos h.busy
  have left := h.left
  omega

/-- A busy cycle counts the prescaler, whatever else happens (R33). -/
theorem nextBlock_presc_busy (c : Params) (rst : p.rst = false) (busy : b.phase ≠ .idle) :
    (nextBlock c p b).presc = (b.presc + 1) % c.cyclesPerUs := by
  obtain ⟨t, -, e⟩ := nextBlock_busy c rst busy
  rw [e]
  rfl

/-- An operation ends at a tick only (R88). -/
theorem tick_of_finish (rst : p.rst = false) (busy : b.phase ≠ .idle) (ends : (nextBlock c p b).phase = .idle) :
    b.presc = c.cyclesPerUs - 1 := by
  by_contra noTick
  rw [nextBlock_between rst busy noTick] at ends
  exact busy ends

/-- An accepted command puts an operation under way with the bound of R128 (R79). -/
theorem UnderWay.begins {init : Bool} (rst : p.rst = false) (accepted : b.accepts (decode p.slot) = true)
    (isInit : init = true ↔ ∃ dc, decode p.slot = .cmdInit dc) :
    UnderWay c (c.bound init) 0 (nextBlock c p b) := by
  rw [nextBlock_accepted rst accepted isInit]
  exact {
    busy := (Block.busy_iff _).mp (b.startAcq_busy c init)
    presc := (Nat.zero_mod _).symm
    left := (b.startAcq_cyclesLeft c init).le }

/-- Each cycle takes it one cycle on, or ends it with a whole number of ticks used up. -/
theorem UnderWay.next_or_finished (h : UnderWay c B e b) (inv : b.Inv c) (sound : c.wf = true) (rst : p.rst = false) :
    UnderWay c B (e + 1) (nextBlock c p b) ∨
      (c.cyclesPerUs ∣ e + 1 ∧ ∃ res, FinishedWith res b (nextBlock c p b)) := by
  obtain ⟨busy, presc, left⟩ := h
  have counts : (b.presc + 1) % c.cyclesPerUs = (e + 1) % c.cyclesPerUs := by rw [presc, Nat.mod_add_mod]
  rcases busyCycle_runs_or_finished c rst busy with runs | ⟨res, finished⟩
  · refine .inl ⟨runs.busy, (nextBlock_presc_busy c rst busy).trans counts, ?_⟩
    have shorter := (nextBlock_cyclesLeft_lt inv sound rst busy).resolve_left runs.busy
    omega
  · refine .inr ⟨Nat.dvd_of_mod_eq_zero ?_, res, finished⟩
    rw [← counts, tick_of_finish rst busy finished.phase, Nat.sub_add_cancel (Params.cyclesPerUs_pos sound),
      Nat.mod_self]

end

/-- The cycle after a run, without reset. -/
theorem Reaches.next_cycle {k : Nat} {s t : State} (reach : Reaches k s t) (safe : s.Safe)
    (noReset : s.NoReset (k + 1)) :
    ∃ u, Reaches (k + 1) s u ∧ t.pins.rst = false ∧ u.blk = nextBlock s.cfg t.pins t.blk := by
  obtain ⟨u, reach'⟩ := safe.reaches (k + 1)
  obtain ⟨t', before, rst, blk⟩ := reach'.last_cycle safe noReset
  obtain rfl : t = t' := by
    have ran := before.run
    rw [reach.run] at ran
    cases ran
    rfl
  exact ⟨u, reach', rst, blk⟩

/-- An operation under way in cycle `e` finishes after `n` cycles, a whole number of ticks and at most `B` of them, and
is busy until then: the cycles left of the bound decrease. -/
theorem UnderWay.finishes {s t : State} {B e : Nat} (safe : s.Safe) (noReset : s.NoReset (1 + B * s.cfg.cyclesPerUs))
    (reach : Reaches (e + 1) s t) (underWay : UnderWay s.cfg B e t.blk) :
    ∃ n, e < n ∧ n ≤ B * s.cfg.cyclesPerUs ∧ s.cfg.cyclesPerUs ∣ n ∧
      (∀ m, e ≤ m → m < n → ∃ u, Reaches (m + 1) s u ∧ u.blk.phase ≠ .idle) ∧
      ∃ u res b, Reaches (n + 1) s u ∧ FinishedWith res b u.blk := by
  have within := underWay.within reach.inv
  obtain ⟨u, reach', rst, blk⟩ := reach.next_cycle safe (noReset.mono (by omega))
  have next := underWay.next_or_finished reach.inv safe.cfg rst
  rw [← blk] at next
  rcases next with goesOn | ⟨ticks, res, finished⟩
  · obtain ⟨n, later, bound, ticks, busy, ends⟩ := goesOn.finishes safe noReset reach'
    refine ⟨n, by omega, bound, ticks, fun m first before => ?_, ends⟩
    rcases Nat.eq_or_lt_of_le first with rfl | after
    · exact ⟨t, reach, underWay.busy⟩
    · exact busy m after before
  · refine ⟨e + 1, e.lt_succ_self, within, ticks, fun m first before => ?_, u, res, t.blk, reach', finished⟩
    obtain rfl : e = m := by omega
    exact ⟨t, reach, underWay.busy⟩
termination_by B * s.cfg.cyclesPerUs - e

/-- A command that an idle block does not accept ends in its own cycle (R77, R78). -/
theorem nextBlock_immediate (c : Params) {p : Pins} {b : Block} (rst : p.rst = false) (idle : b.phase = .idle)
    (command : isCommand (decode p.slot) = true) (refused : b.accepts (decode p.slot) = false) :
    (nextBlock c p b).phase = .idle ∧ (nextBlock c p b).done = true := by
  obtain ⟨h, host, e⟩ := nextBlock_idle c rst idle
  have done := host.done_eq idle
  rw [command, refused] at done
  rw [e]
  refine ⟨(host.phase_cases idle).resolve_right fun starts => ?_, done⟩
  simp [refused] at starts

/-- With the default budgets the bound is the power-up wait and 6800 ticks (R5, R128). -/
theorem bound_withDefaults (c u : Nat) (init : Bool) :
    (Params.withDefaults c u).bound init = (if init then u else 0) + 6800 := by
  simp only [Params.bound, Params.withDefaults, Params.bitBudget]

/-- Settles O57: an accepted command is `UnderWay` from the next cycle on (`UnderWay.begins`), and so finishes
(`UnderWay.finishes`); the other commands are `nextBlock_immediate`. -/
theorem everyAcceptedCommandFinishesWithinTheBound : Obligations.EveryAcceptedCommandFinishesWithinTheBound := by
  unfold Obligations.EveryAcceptedCommandFinishesWithinTheBound
  refine ⟨fun s p rest init safe listed accepted isInit noReset => ?_,
    fun s p rest sound listed rst idle command refused => ?_,
    fun c u => ⟨bound_withDefaults c u true, (bound_withDefaults c u false).trans (Nat.zero_add _)⟩⟩
  · obtain rfl := State.pins_cons listed
    obtain ⟨t, reach⟩ := safe.reaches 1
    obtain ⟨_, ⟨⟨⟩, -⟩, rst, blk⟩ := reach.last_cycle safe (noReset.mono (Nat.le_add_right _ _))
    have begins : UnderWay s.cfg (s.cfg.bound init) 0 t.blk := by rw [blk]; exact .begins rst accepted isInit
    obtain ⟨n, first, bound, ⟨ticks, rfl⟩, busy, u, res, b, ends, finished⟩ := begins.finishes safe noReset reach
    rw [Nat.mul_comm] at first bound busy ends
    refine ⟨ticks, Nat.pos_of_mul_pos_right first,
      Nat.le_of_mul_le_mul_right bound (Params.cyclesPerUs_pos safe.cfg), fun m hm le => ?_,
      u, Nat.add_comm 1 _ ▸ ends.run, finished.phase, finished.done, finished.result_cases⟩
    obtain ⟨m, rfl⟩ := Nat.exists_eq_add_of_le' hm
    obtain ⟨v, reach, running⟩ := busy m (Nat.zero_le m) le
    exact ⟨v, reach.run, running, reach.inv.busy_done running⟩
  · obtain ⟨t, ht, blk, -⟩ := step_listed sound listed
    refine ⟨t, ht, ?_⟩
    rw [blk]
    exact nextBlock_immediate s.cfg rst idle command refused

end Sys2Proof.Machine
end

section
/-! PROOFS. Simultaneous events (R119): a busy cycle beside a host's transaction is the same cycle with the bus idle,
with the host's flags on top but for the DONE of a finish; and a wait at the tick of its timeout. -/

namespace Sys2Proof.Machine

/-! ## A busy cycle against the same cycle with the bus idle -/

/-- A busy cycle that ends in IDLE has set DONE (R106). -/
theorem nextBlock_done_of_finish {c : Params} {p : Pins} {b : Block} (rst : p.rst = false) (busy : b.phase ≠ .idle)
    (ends : (nextBlock c p b).phase = .idle) : (nextBlock c p b).done = true := by
  obtain ⟨res, finished⟩ := FinishedWith.of_idle rst busy ends
  exact finished.done

/-- The host's transaction `i` merged into the registers `b` that a busy cycle leaves without it: a finish's DONE wins
over a W1C (R119 (b)). -/
def Block.mergeHost (i : Instr) (b : Block) : Block :=
  { b.hostFlags i with done := if b.phase = .idle then true else b.done && !w1cDone i }

/-- The merge of R119 over every busy cycle: the sequencer's registers are as without the host
(`SameSequencer.nextBlock`), and each of the three flags is as `mergeHost` has it. -/
theorem nextBlock_eq_mergeHost (c : Params) {p q : Pins} {b : Block} (rst : p.rst = false) (busy : b.phase ≠ .idle)
    (line : lineOf q = lineOf p) (quiet : decode q.slot = .busIdle) :
    nextBlock c p b = (nextBlock c q b).mergeHost (decode p.slot) := by
  have rst' : q.rst = false := (congrArg Prod.fst line).trans rst
  have same : SameSequencer (nextBlock c q b) (nextBlock c p b) := (SameSequencer.refl b).nextBlock c busy line
  have ie : (nextBlock c q b).ie = b.ie := by
    rw [nextBlock_ie c b rst', quiet]
    rfl
  have drop : (nextBlock c q b).drop = b.drop := by
    rw [nextBlock_drop_busy c rst' busy, quiet]
    simp [isCommand, w1cDrop]
  have done : (nextBlock c p b).done =
      if (nextBlock c q b).phase = .idle then true else (nextBlock c q b).done && !w1cDone (decode p.slot) := by
    have phase := same.place_eq.1
    split
    case isTrue ends => exact nextBlock_done_of_finish rst busy (phase.trans ends)
    case isFalse runs =>
      have undisturbed : (nextBlock c q b).done = b.done := by
        simpa [quiet, w1cDone] using (StillRunning.of_busy rst' busy runs).done
      rw [(StillRunning.of_busy rst busy (phase ▸ runs)).done, undisturbed]
  rw [same, done, nextBlock_ie c b rst, nextBlock_drop_busy c rst busy, Block.mergeHost, Block.hostFlags, ie, drop]

/-- A transaction without a W1C of DONE has nothing to lose against a finish: its flags are merged as they are. -/
theorem Block.mergeHost_eq_hostFlags {i : Instr} {b : Block} (noW1c : w1cDone i = false)
    (finished : b.phase = .idle → b.done = true) : b.mergeHost i = b.hostFlags i := by
  have done : (if b.phase = .idle then true else b.done && !w1cDone i) = (b.done && !w1cDone i) := by
    split
    case isTrue idle => simp [noW1c, finished idle]
    case isFalse => rfl
  rw [mergeHost, done]
  rfl

theorem Block.mergeHost_wrStatus (d : Word) (b : Block) :
    b.mergeHost (.wrStatus d) = { b with
      done := if b.phase = .idle then true else b.done && !d.getLsbD 1, drop := b.drop && !d.getLsbD 3 } := by
  simp [mergeHost, hostFlags, ieAfter, isCommand, w1cDone, w1cDrop]

/-! ## The host's flags, by transaction -/

theorem Block.hostFlags_wrCtrl (d : Word) (b : Block) : b.hostFlags (.wrCtrl d) = { b with ie := d.getLsbD 0 } := by
  simp [hostFlags, ieAfter, isCommand, w1cDone, w1cDrop]

theorem Block.hostFlags_command {i : Instr} (command : isCommand i = true) (b : Block) :
    b.hostFlags i = { b with drop := true } := by
  cases i with
  | cmdInit _ | cmdAcquire _ | cmdRsvd _ => simp [hostFlags, ieAfter, isCommand, w1cDone]
  | _ => simp [isCommand] at command

theorem w1cDone_of_isCommand {i : Instr} (command : isCommand i = true) : w1cDone i = false := by
  cases i with
  | wrStatus _ => simp [isCommand] at command
  | _ => rfl

/-- A read writes no flag (R46). -/
theorem Block.hostFlags_decodeRead (t : Txn) (b : Block) : b.hostFlags (decodeRead t) = b := by
  unfold decodeRead
  split_ifs <;> simp [hostFlags, ieAfter, isCommand, w1cDone, w1cDrop]

theorem w1cDone_decodeRead (t : Txn) : w1cDone (decodeRead t) = false := by
  unfold decodeRead
  split_ifs <;> rfl

/-! ## The level seen at the tick of the timeout -/

/-- What follows a wait but the last is the next phase of the path: nothing is finished (R84 to R86, R93). -/
theorem Block.afterWait_goes_on {q : Phase} {level : Bool} (waits : awaited q = some level) (notLast : q ≠ .waitBitLo)
    (j : Nat) (b : Block) :
    (b.afterWait q j).phase ≠ .idle ∧ (b.afterWait q j).result = b.result ∧ (b.afterWait q j).done = b.done := by
  cases q with
  | idle | powerup | start => cases waits
  | waitBitLo => exact absurd rfl notLast
  | waitAckLo | waitAckHi | waitDataLo | waitBitHi => exact ⟨nofun, rfl, rfl⟩

/-- Settles O46: in a busy cycle the merge is `mergeHost` (`nextBlock_eq_mergeHost`), by transaction; a level seen is
answered before the timeout is looked at (`effect_wait_seen`). -/
theorem simultaneousEventsMergeByPriority : Obligations.SimultaneousEventsMergeByPriority := by
  unfold Obligations.SimultaneousEventsMergeByPriority
  refine ⟨fun s p rest sound => ?_, fun s q waits _ => ?levelAtTimeout⟩
  · obtain ⟨t, ht, blk, out⟩ := step_listed (s := { s with inputs := p :: rest }) sound rfl
    obtain ⟨t0, ht0, blk0, -⟩ :=
      step_listed (s := { s with inputs := { p with busSel := false } :: rest }) sound rfl
    refine ⟨t, t0, ht, ht0, fun rst => ?reset, fun rst busy => ?_⟩
    case reset => rw [blk, nextBlock_reset _ _ rst]; rfl
    have merged : t.blk = t0.blk.mergeHost (decode p.slot) := by
      rw [blk, blk0]
      exact nextBlock_eq_mergeHost _ rst busy rfl (decode_slot_unselected rfl)
    have finished : t0.blk.phase = .idle → t0.blk.done = true := by
      rw [blk0]
      exact nextBlock_done_of_finish rst busy
    have flags (noW1c : w1cDone (decode p.slot) = false) : t.blk = t0.blk.hostFlags (decode p.slot) :=
      merged.trans (Block.mergeHost_eq_hostFlags noW1c finished)
    refine ⟨fun d write => ?w1c, fun command => ?command, fun d write => ?ctrl, fun sel read => ?read⟩
    case w1c => rw [merged, write, Block.mergeHost_wrStatus]
    case command => rw [flags (w1cDone_of_isCommand command), Block.hostFlags_command command]
    case ctrl =>
      have written := flags (by rw [write]; rfl)
      rw [write, Block.hostFlags_wrCtrl] at written
      exact ⟨written, by rw [written]; rfl⟩
    case read =>
      have isRead := decode_slot_read sel read
      have kept := flags (by rw [isRead]; exact w1cDone_decodeRead _)
      rw [isRead, Block.hostFlags_decodeRead] at kept
      refine ⟨kept, ?_⟩
      rw [out]
      exact (readData_slot s.blk p).trans (if_pos ⟨sel, read⟩)
  case levelAtTimeout =>
    refine ⟨_, exec_op_of_effect (effect_wait_seen waits rfl), Block.afterWait_cnt q _ rfl,
      fun notLast => Block.afterWait_goes_on waits notLast _ _, ?_⟩
    rintro rfl
    exact (Block.bitDone_bit _ _).2.1

end Sys2Proof.Machine
end

section
/-! PROOFS. The timing of a command, and reset (R129, R141, R144): the cycle of a command, the cycle of a reset, and the
least number of ticks behind an operation in each of its cycles (`Block.leastTicks`, `Paced`). -/

namespace Sys2Proof

/-- The ticks from the release of the line to the end of the shortest of the five waits that can time out, when every
wait before it takes its one tick (R143, R144). -/
def Params.shortestTimeout (c : Params) : Nat :=
  min c.toAckLoUs (min (1 + c.toAckHiUs) (min (2 + c.toDataLoUs) (min (3 + c.toBitHiUs) (4 + c.toBitLoUs))))

namespace Machine

/-! ## The cycle of a command -/

section
variable {p : Pins} {b : Block}

/-- The cycle of an accepted command leaves an operation running (R79). -/
theorem nextBlock_accepted_busy (c : Params) (rst : p.rst = false) (accepted : b.accepts (decode p.slot) = true) :
    (nextBlock c p b).busy = true := by
  obtain ⟨init, isInit⟩ : ∃ init : Bool, init = true ↔ ∃ dc, decode p.slot = .cmdInit dc := by
    classical exact ⟨decide _, decide_eq_true_iff⟩
  rw [nextBlock_accepted rst accepted isInit]
  exact b.startAcq_busy c init

/-- The cycle of an accepted command without a power-up wait leaves the line driven (R79, R141). -/
theorem nextBlock_accepted_drives {c : Params} {init : Bool} (rst : p.rst = false)
    (accepted : b.accepts (decode p.slot) = true) (isInit : init = true ↔ ∃ dc, decode p.slot = .cmdInit dc)
    (atOnce : powersUp c init = false) : (nextBlock c p b).dqOe = true := by
  simp [nextBlock_accepted rst accepted isInit, atOnce]

end

/-- Settles O54: BUSY and DONE are bits 0 and 1 of STATUS (`Block.statusWord_getLsbD`); an accepted command leaves an
operation running (`nextBlock_accepted_busy`), any other one has finished (`nextBlock_immediate`). -/
theorem commandTakesEffectInTheNextCycle : Obligations.CommandTakesEffectInTheNextCycle := by
  unfold Obligations.CommandTakesEffectInTheNextCycle
  intro s p rest sound listed rst idle
  have hb : s.blk.busy = false := s.blk.busy_eq_false_iff.mpr idle
  obtain ⟨t, ht, blk, -⟩ := step_listed sound listed
  refine ⟨t, ht, ?_⟩
  simp only [blk, Block.statusWord_getLsbD, Block.dqOePin_false]
  refine ⟨nextBlock_accepted_busy s.cfg rst, fun command refused => ?_, fun dc acquire ready => ?_,
    fun dc init noWait => ?_⟩
  · obtain ⟨ended, done⟩ := nextBlock_immediate s.cfg rst idle command refused
    exact ⟨done, (Block.busy_eq_false_iff _).mpr ended⟩
  · exact nextBlock_accepted_drives (init := false) rst (by simp [acquire, Block.accepts, hb, ready])
      (by simp [acquire]) rfl
  · exact nextBlock_accepted_drives (init := true) rst (by simp [init, Block.accepts, hb]) (by simp [init])
      (by simp [powersUp, noWait])

/-! ## The cycle of a reset -/

/-- A reset cycle of a sound machine, whatever the transaction: the block is in RESET_STATE, and the output of a read is
as in any cycle (R129). -/
theorem step_of_reset {s : State} {p : Pins} {rest : List Pins} (sound : s.cfg.wf = true)
    (listed : s.inputs = p :: rest) (rst : p.rst = true) :
    ∃ t, step s = .next t ∧ t.cfg = s.cfg ∧ t.inputs = rest ∧ t.blk = Block.reset ∧ t.out = outputsOf p s.blk := by
  obtain ⟨t, ht, blk, out⟩ := step_listed sound listed
  obtain ⟨-, cfg, -, inputs, -⟩ := step_next ht
  exact ⟨t, ht, cfg, by rw [inputs, listed, List.tail_cons], by rw [blk, nextBlock_reset _ _ rst], out⟩

/-- Settles O49: `step_of_reset` for the reset cycle and for each one it is held; the reset block is idle, so it accepts
INIT (`nextBlock_accepted_busy`). -/
theorem resetCycleOverridesEverything : Obligations.ResetCycleOverridesEverything := by
  unfold Obligations.ResetCycleOverridesEverything
  intro s p rest sound listed rst
  obtain ⟨t, ht, cfg, inputs, blk, out⟩ := step_of_reset sound listed rst
  have sound' : t.cfg.wf = true := cfg ▸ sound
  refine ⟨t, ht, cfg, inputs, blk, fun sel read => ?_, fun q ps next held => ?_, fun q ps dc next rst' init => ?_⟩
  · rw [out]
    exact (readData_slot s.blk p).trans (if_pos ⟨sel, read⟩)
  · obtain ⟨u, hu, -, -, blk', -⟩ := step_of_reset sound' (inputs.trans next) held
    exact ⟨u, hu, blk'.trans blk.symm⟩
  · obtain ⟨u, hu, blk', -⟩ := step_listed sound' (inputs.trans next)
    refine ⟨u, hu, ?_⟩
    rw [blk', blk]
    exact (Block.busy_iff _).mp (nextBlock_accepted_busy t.cfg rst' (by rw [init]; rfl))

/-! ## The least number of ticks behind an operation -/

/-- The fewest ticks that an operation with a power-up wait of `P` ticks can have behind it: the exact lengths of POWERUP
and START, one tick of each wait before this phase, and the ticks of this phase (R143). -/
def Block.leastTicks (c : Params) (P : Nat) (b : Block) : Nat :=
  match b.phase with
  | .idle => 0
  | .powerup => b.cnt
  | .start => P + b.cnt
  | .waitAckLo => P + c.startLowUs + b.cnt
  | .waitAckHi => P + c.startLowUs + 1 + b.cnt
  | .waitDataLo => P + c.startLowUs + 2 + b.cnt
  | .waitBitHi => P + c.startLowUs + 3 + 2 * b.bitidx + b.cnt
  | .waitBitLo => P + c.startLowUs + 4 + 2 * b.bitidx + b.cnt

section
variable {c : Params} {P : Nat} {b t : Block}

/-- A tick adds at most one to the least number: POWERUP and START end at their exact lengths, and a wait is counted as
one tick however long it lasted (R143). -/
theorem TickDoes.leastTicks_le (h : TickDoes c b t) (delay : b.phase = .powerup → P = c.powerupUs) :
    t.leastTicks c P ≤ b.leastTicks c P + 1 := by
  cases h with
  | counted _ => cases inPhase : b.phase <;> simp only [Block.leastTicks, inPhase] <;> omega
  | powerupEnds inPhase last =>
    have wait := delay inPhase
    simp only [Block.leastTicks, inPhase]
    omega
  | startEnds inPhase _ | ackLoSeen inPhase _ | ackHiSeen inPhase _ | dataLoSeen inPhase _ | bitRises inPhase _
  | bitEnds inPhase _ _ =>
    simp only [Block.leastTicks, inPhase]
    omega
  | frameEnds _ _ _ _ _ | timesOut _ _ => exact Nat.zero_le _

/-- The tick that ends an operation: the end of the 40th bit has the 83 waits behind it, a TIMEOUT at least the shortest
way into one (R144). -/
theorem TickDoes.leastTicks_at_end (h : TickDoes c b t) (busy : b.phase ≠ .idle) (ends : t.phase = .idle) (P : Nat) :
    (t.result ≠ 2 → P + c.startLowUs + 83 ≤ b.leastTicks c P + 1) ∧
      (t.result = 2 → P + c.startLowUs + c.shortestTimeout ≤ b.leastTicks c P + 1) := by
  cases h with
  | counted _ => exact absurd ends busy
  | powerupEnds _ _ | startEnds _ _ | ackLoSeen _ _ | ackHiSeen _ _ | dataLoSeen _ _ | bitRises _ _ | bitEnds _ _ _ =>
    cases ends
  | frameEnds res verdict inPhase _ last =>
    have noTimeout : resultCode res ≠ 2 := by rw [verdict]; split <;> decide
    refine ⟨fun _ => ?_, fun timeout => absurd timeout noTimeout⟩
    simp only [Block.leastTicks, inPhase]
    omega
  | timesOut unseen spent =>
    refine ⟨fun noTimeout => absurd rfl noTimeout, fun _ => ?_⟩
    unfold Params.shortestTimeout
    cases inPhase : b.phase <;> simp only [inPhase, Params.ticksOf, Block.leastTicks] at spent ⊢
    case idle | powerup | start => simp [inPhase, awaited] at unseen
    all_goals omega

/-- An operation `e` cycles after its first one: the ticks it must have behind it have had the time for it. -/
structure Paced (c : Params) (P e : Nat) (b : Block) : Prop where
  delay : b.phase = .powerup → P = c.powerupUs
  taken : b.leastTicks c P * c.cyclesPerUs + b.presc ≤ e

/-- Up to the release of the line the ticks are exact (`StartSignal`, R90). -/
theorem StartSignal.paced {e : Nat} (h : StartSignal c P e b) : Paced c P e b := by
  cases h with
  | powerup inPhase delay elapsed _ =>
    refine ⟨fun _ => delay, ?_⟩
    simp only [Block.leastTicks, inPhase]
    exact elapsed.le
  | start inPhase elapsed _ =>
    refine ⟨by simp [inPhase], ?_⟩
    simp only [Block.leastTicks, inPhase, Nat.add_mul, Nat.add_assoc]
    exact elapsed.le
  | released inPhase fresh place =>
    refine ⟨by simp [inPhase], ?_⟩
    simp only [Block.leastTicks, inPhase]
    rw [Nat.add_mul, Nat.add_assoc, place]
    exact Nat.add_le_add_left fresh.le _

/-- At a tick the whole period of it has passed. -/
theorem Paced.at_tick {e : Nat} (h : Paced c P e b) (sound : c.wf = true) (tick : b.presc = c.cyclesPerUs - 1) :
    (b.leastTicks c P + 1) * c.cyclesPerUs ≤ e + 1 := by
  have taken := h.taken
  have pos := Params.cyclesPerUs_pos sound
  rw [Nat.succ_mul]
  omega

/-- POWERUP follows no other busy phase (R17). -/
theorem eq_powerup_of_successor {q : Phase} (busy : q ≠ .idle) (path : .powerup ∈ successors q) : q = .powerup := by
  cases q <;> simp_all [successors]

variable {e : Nat} {p : Pins} (h : Paced c P e b) (sound : c.wf = true) (rst : p.rst = false) (busy : b.phase ≠ .idle)
include h sound rst busy

/-- Each cycle in which the operation runs on keeps the pace. -/
theorem Paced.next (inv : b.Inv c) (busy' : (nextBlock c p b).phase ≠ .idle) :
    Paced c P (e + 1) (nextBlock c p b) := by
  refine ⟨fun powerup => ?_, ?_⟩
  · have path := (StillRunning.of_busy rst busy busy').path
    rw [powerup] at path
    exact h.delay (eq_powerup_of_successor busy path)
  · obtain ⟨t, ⟨noTick, rfl⟩ | ⟨last, tick⟩, eq⟩ := nextBlock_busy c rst busy <;> rw [eq]
    · have presc := inv.presc_lt
      show b.leastTicks c P * c.cyclesPerUs + (b.presc + 1) % c.cyclesPerUs ≤ e + 1
      rw [Nat.mod_eq_of_lt (by omega)]
      exact Nat.succ_le_succ h.taken
    · have more : t.leastTicks c P ≤ b.leastTicks c P + 1 := tick.leastTicks_le h.delay
      show t.leastTicks c P * c.cyclesPerUs + (b.presc + 1) % c.cyclesPerUs ≤ e + 1
      rw [last, Nat.sub_add_cancel (Params.cyclesPerUs_pos sound), Nat.mod_self]
      exact (Nat.mul_le_mul_right _ more).trans (h.at_tick sound last)

/-- The cycle that ends the operation comes no earlier than its result allows (R144). -/
theorem Paced.ends_late (ends : (nextBlock c p b).phase = .idle) :
    ((nextBlock c p b).result ≠ 2 → (P + c.startLowUs + 83) * c.cyclesPerUs ≤ e + 1) ∧
      ((nextBlock c p b).result = 2 → (P + c.startLowUs + c.shortestTimeout) * c.cyclesPerUs ≤ e + 1) := by
  obtain ⟨t, ⟨-, rfl⟩ | ⟨last, tick⟩, eq⟩ := nextBlock_busy c rst busy <;> rw [eq] at ends ⊢
  · exact absurd ends busy
  · have passed := h.at_tick sound last
    have late {k : Nat} (le : k ≤ b.leastTicks c P + 1) : k * c.cyclesPerUs ≤ e + 1 :=
      (Nat.mul_le_mul_right _ le).trans passed
    exact (tick.leastTicks_at_end busy ends P).imp (late ∘ ·) (late ∘ ·)

end

/-- While an accepted command's operation runs, every cycle of it is paced: it begins so (`StartSignal.begins`), and each
cycle keeps it (`Paced.next`). -/
theorem Reaches.paced {s t : State} {init : Bool} {P e : Nat} (safe : s.Safe)
    (accepted : s.blk.accepts (decode s.pins.slot) = true)
    (isInit : init = true ↔ ∃ dc, decode s.pins.slot = .cmdInit dc) (delay : P = if init then s.cfg.powerupUs else 0)
    (reach : Reaches (e + 1) s t) (noReset : s.NoReset (e + 1))
    (lasts : ∀ m, 1 ≤ m → m ≤ e + 1 → ∃ u, Machine.run m s = .next u ∧ u.blk.phase ≠ .idle) :
    Paced s.cfg P e t.blk := by
  induction e generalizing t with
  | zero => exact (reach.startSignal safe accepted isInit delay noReset (Nat.zero_le _)).paced
  | succ e ih =>
    obtain ⟨u, before, rst, blk⟩ := reach.last_cycle safe noReset
    have paced := ih before (noReset.mono (Nat.le_succ _)) fun m first le => lasts m first (Nat.le_succ_of_le le)
    have busy : u.blk.phase ≠ .idle :=
      before.of_run (Q := fun b => b.phase ≠ .idle) (lasts _ (Nat.succ_pos e) (Nat.le_succ _))
    have busy' : t.blk.phase ≠ .idle := reach.of_run (Q := fun b => b.phase ≠ .idle) (lasts _ (Nat.succ_pos _) le_rfl)
    rw [blk] at busy' ⊢
    exact paced.next safe.cfg rst busy before.inv busy'

/-- Settles O58: the last busy cycle is paced (`Reaches.paced`), so the one that ends the operation is late enough for
its result (`Paced.ends_late`); without a busy cycle nothing has ended. -/
theorem noAcquisitionFinishesBeforeItsLeastLatency : Obligations.NoAcquisitionFinishesBeforeItsLeastLatency := by
  unfold Obligations.NoAcquisitionFinishesBeforeItsLeastLatency
  intro s p rest init P n safe listed accepted isInit delay noReset lasts
  obtain rfl := State.pins_cons listed
  rw [Nat.add_comm 1 n] at noReset ⊢
  obtain ⟨t, reach⟩ := safe.reaches (n + 1)
  obtain ⟨u, before, rst, blk⟩ := reach.last_cycle safe noReset
  refine ⟨t, reach.run, ?_⟩
  rw [blk]
  cases n with
  | zero =>
    obtain ⟨⟨⟩, -⟩ := before
    have starts := (Block.busy_iff _).mp (nextBlock_accepted_busy s.cfg rst accepted)
    exact ⟨fun ended => absurd ended starts, fun ended => absurd ended starts⟩
  | succ e =>
    have paced := before.paced safe accepted isInit delay (noReset.mono (Nat.le_succ _)) lasts
    have busy : u.blk.phase ≠ .idle :=
      before.of_run (Q := fun b => b.phase ≠ .idle) (lasts _ (Nat.succ_pos e) le_rfl)
    refine ⟨fun ended okOrChecksum => ?_, fun ended => (paced.ends_late safe.cfg rst busy ended).2⟩
    refine (paced.ends_late safe.cfg rst busy ended).1 ?_
    rcases okOrChecksum with result | result <;> rw [result] <;> decide

end Machine
end Sys2Proof
end
